-- ==== Sys2Proof/Word.lean ====
section
/-! DEFINITION. The value types of the machine (00_scope.md R8, R10, R11): every value is an unsigned
integer of a stated width, and bit 0 is its least significant bit. -/

namespace Sys2Proof

/-- An 8-bit value: a general register, a memory cell, a timer. -/
abbrev Byte := BitVec 8

/-- A 16-bit value: an instruction word, the index register, the program counter, a stack entry. -/
abbrev Word := BitVec 16

/-- A 4-bit field: a general register's number, a sprite's row count, a sub-key, a key's number. -/
abbrev Nibble := BitVec 4

/-- A 12-bit address field `nnn`. -/
abbrev Addr := BitVec 12

end Sys2Proof
end

