-- ==== Sys2Proof/Config.lean ====
section
/-! DEFINITION. What the spec leaves to the environment (92_eei_decisions.md, "Parameters left open").
The machine's sizes are constants (00_scope.md R8, R9) and stand as literals in the types of State. -/

namespace Sys2Proof

/-- `MEM_INIT` (00_scope.md R9, D22): what a memory cell holds before anything is loaded, which is
also what a cell that State's memory does not list reads as. DESIGN CHOICE: all zero, unsafe
(notes/assumptions/1.md). Any other contents are a State whose memory lists them
(`Machine.State.resetWith`). -/
def Config.memInit (_address : Nat) : Byte := 0#8

/-- The free stream of random bytes (10_state.md R33, D17): byte number `k` the randomness
collaborator supplies when no byte was queued in State. It has no body: a statement about it
holds for every generator. DESIGN CHOICE, safe (notes/assumptions/4.md). -/
opaque Config.randomByte : Nat → Byte

end Sys2Proof
end

