-- ==== Sys2Proof/Machine/State.lean ====
section
/-! DEFINITION. The state of the machine (10_state.md R20 to R37) as plain data, its reset (R36, R230,
R231), and the reasons a step can stop (60_exceptions.md R201). -/

namespace Sys2Proof.Machine

/-- Memory as address and byte pairs in one canonical form (`Memory.wf` in Machine/Ops.lean). A cell that
is not listed holds `Config.memInit` of its address. -/
abbrev Memory := List Host.Cell

/-- Sixteen key levels, `true` where the key is pressed (R31). -/
abbrev Keys := Vector Bool 16

/-- The framebuffer: 64 columns of 32 rows, indexed column first (R32). -/
abbrev Framebuffer := Vector (Vector Bool 32) 64

/-- What the environment does in the gap before one step (R30, R31, R37): how many ticks the timer
collaborator makes, and the key levels the core samples at the start of that step. -/
structure Gap where
  ticks : Nat
  keys : Keys
  deriving DecidableEq, Repr

/-- The state. The fields down to `fb` are the spec's aggregate (R20), each under its rule; the last
three are the model's own and hold what R37 calls parameters of a run. -/
structure State where
  /-- `V[0..15]` (R21); register 15 is `VF` (R22). -/
  regs : Vector Byte 16
  /-- `I` (R24). -/
  index : Word
  /-- `PC` (R25), below 4096 in every state a run reaches (R26). -/
  pc : Word
  /-- `MEM[0..4095]` (R34). -/
  mem : Memory
  /-- `STACK[0..15]` (R27). -/
  stack : Vector Word 16
  /-- `SP`, the number of valid stack entries, 0 to 16 (R27, R9). -/
  sp : Fin 17
  /-- `DT` (R28). -/
  dt : Byte
  /-- `ST` (R29). -/
  st : Byte
  /-- `KEYS[0..15]`, the levels now (R31). -/
  keys : Keys
  /-- `FB[0..63][0..31]` (R32). -/
  fb : Framebuffer
  /-- The environment's gaps before the coming steps, the next first; past the end there are no
  ticks and the keys stay (notes/assumptions/5.md). -/
  gaps : List Gap
  /-- Bytes the randomness collaborator has queued for coming Cxkk, oldest first (R33,
  notes/assumptions/4.md). -/
  randomIn : List Byte
  /-- How many random bytes have been consumed: the place in `Config.randomByte`
  (notes/assumptions/4.md). -/
  randomCount : Nat
  deriving DecidableEq, Repr

/-- Why a step ends in a fault (R201), with the address of the instruction and its word (R200). All
three are the spec's own faults, and the state stays as it was (R204): stopping here is safe, since
the model claims nothing beyond the fault. -/
inductive Fault where
  /-- Code 1 (R202): raised by `step` for every word that decodes to no instruction. Safe. -/
  | unknownOpcode (addr word : Word)
  /-- Code 2 (R203): raised by RET when the stack is empty. Safe. -/
  | callStackUnderflow (addr word : Word)
  /-- Code 3 (R205, D12): raised by CALL when all 16 entries are in use. Safe: an implementation
  without the bound would only go on. -/
  | callStackOverflow (addr word : Word)
  deriving DecidableEq, Repr

/-- Why the model gives a step no meaning. No step of this model ends so: every instruction has its
meaning. -/
inductive Refusal where
  /-- Raised by `exec` for an instruction that has no meaning yet; no arm raises it. Safe. -/
  | notModelled (mnemonic : String)
  deriving DecidableEq, Repr

/-- What a step of this machine answers. -/
abbrev Answer := Host.Outcome State Fault Refusal

/-- Reset with given memory contents `MEM_INIT` (R36, R230, D22). Every value but `pc` is the spec's own
choice D18 (notes/assumptions/2.md, 3.md); the last three fields are the model's (4.md, 5.md). -/
def State.resetWith (memInit : Memory) : State where
  regs := Vector.replicate 16 0#8
  index := 0#16
  pc := 512#16
  mem := memInit
  stack := Vector.replicate 16 0#16
  sp := 0
  dt := 0#8
  st := 0#8
  keys := Vector.replicate 16 false
  fb := Vector.replicate 64 (Vector.replicate 32 false)
  gaps := []
  randomIn := []
  randomCount := 0

/-- The machine right after reset (R36), with nothing loaded: every memory cell holds
`Config.memInit` (notes/assumptions/1.md). -/
def State.reset : State := State.resetWith []

end Sys2Proof.Machine
end

