-- ==== Sys2Proof/Machine/Flags.lean ====
section
/-! DEFINITION. The flag computations (10_state.md R23; 41_alu.md R125 to R129): each from the operand
values read at the start (00_scope.md R13), independent of the values stored afterward (R131). The
collision flag of DRW is `State.drawRows`'s second component. -/

namespace Sys2Proof.Machine

/-- Carry of 8xy4: the unbounded sum passes 255 (R125). -/
def carryFlag (a b : Byte) : Bool := decide (a.toNat + b.toNat > 255)

/-- Flag of 8xy5 (and 8xy7 with the operands exchanged): strictly greater (R126, R128,
90_conflicts.md C1). -/
def greaterFlag (a b : Byte) : Bool := decide (a.toNat > b.toNat)

/-- Flag of 8xy6: bit 0 before the shift (R127). -/
def lowBitFlag (a : Byte) : Bool := a.getLsbD 0

/-- Flag of 8xyE: bit 7 before the shift (R129, 90_conflicts.md C5). -/
def highBitFlag (a : Byte) : Bool := a.getLsbD 7

end Sys2Proof.Machine
end

