-- ==== Sys2Proof/Syntax.lean ====
section
/-! DEFINITION. The 34 instructions (30_encoding.md R74, R78), one constructor for each row of the
opcode map, with the operands its decode names. The operand types carry the operands' ranges
(30_encoding.md R71, R73), so every term of `Instr` is well formed; the bits a decoder ignores
(30_encoding.md R80) are no operands. -/

namespace Sys2Proof

/-- An instruction. Each constructor is named after its row's mnemonic; `x` and `y` are register
numbers, `kk` an 8-bit immediate, `nnn` a 12-bit address and `n` a row count. -/
inductive Instr where
  /-- 00E0: clear the framebuffer (R101). -/
  | cls
  /-- 00EE: return from subroutine (R162). -/
  | ret
  /-- 1nnn: jump (R163). -/
  | jp (nnn : Addr)
  /-- 2nnn: call subroutine (R164). -/
  | call (nnn : Addr)
  /-- 3xkk: skip if `V[x] = kk` (R165). -/
  | seImm (x : Nibble) (kk : Byte)
  /-- 4xkk: skip if `V[x] ≠ kk` (R166). -/
  | sneImm (x : Nibble) (kk : Byte)
  /-- 5xy-: skip if `V[x] = V[y]` (R167). -/
  | seReg (x y : Nibble)
  /-- 6xkk: load immediate (R190). -/
  | ldImm (x : Nibble) (kk : Byte)
  /-- 7xkk: add immediate, no flag (R191). -/
  | addImm (x : Nibble) (kk : Byte)
  /-- 8xy0: register move (R121). -/
  | ldReg (x y : Nibble)
  /-- 8xy1: bitwise or (R122). -/
  | orReg (x y : Nibble)
  /-- 8xy2: bitwise and (R123). -/
  | andReg (x y : Nibble)
  /-- 8xy3: bitwise exclusive or (R124). -/
  | xorReg (x y : Nibble)
  /-- 8xy4: add, carry flag (R125). -/
  | addReg (x y : Nibble)
  /-- 8xy5: subtract `V[y]` from `V[x]` (R126). -/
  | sub (x y : Nibble)
  /-- 8xy6: shift right by one; the `y` field is ignored (R127). -/
  | shr (x : Nibble)
  /-- 8xy7: subtract `V[x]` from `V[y]` (R128). -/
  | subn (x y : Nibble)
  /-- 8xyE: shift left by one; the `y` field is ignored (R129). -/
  | shl (x : Nibble)
  /-- 9xy-: skip if `V[x] ≠ V[y]` (R168). -/
  | sneReg (x y : Nibble)
  /-- Annn: load the index register (R192). -/
  | ldI (nnn : Addr)
  /-- Bnnn: jump to `nnn + V[0]` (R169). -/
  | jpV0 (nnn : Addr)
  /-- Cxkk: random byte and `kk` (R193). -/
  | rnd (x : Nibble) (kk : Byte)
  /-- Dxyn: draw an `n`-row sprite (R102). -/
  | drw (x y n : Nibble)
  /-- Ex9E: skip if the key is pressed (R170). -/
  | skp (x : Nibble)
  /-- ExA1: skip if the key is not pressed (R171). -/
  | sknp (x : Nibble)
  /-- Fx07: read the delay timer (R141). -/
  | ldFromDt (x : Nibble)
  /-- Fx0A: wait for a key (R142). -/
  | ldKey (x : Nibble)
  /-- Fx15: write the delay timer (R143). -/
  | ldToDt (x : Nibble)
  /-- Fx18: write the sound timer (R144). -/
  | ldToSt (x : Nibble)
  /-- Fx1E: add to the index register (R145). -/
  | addI (x : Nibble)
  /-- Fx29: address of a font glyph (R146). -/
  | ldFont (x : Nibble)
  /-- Fx33: store decimal digits (R147). -/
  | bcd (x : Nibble)
  /-- Fx55: store `V[0..x]` (R148). -/
  | store (x : Nibble)
  /-- Fx65: load `V[0..x]` (R149). -/
  | load (x : Nibble)
  deriving DecidableEq, Repr

end Sys2Proof
end

