-- ==== Sys2Proof/WellFormed.lean ====
section
/-! DEFINITION. The opcode map (30_encoding.md R78) as rows of match and mask, and what makes an
instruction word well formed: it matches a row, and its don't-care bits (R80) are zero, as the
assembler emits them (R82). An `Instr` needs no check of its own: its operand types carry the
ranges. -/

namespace Sys2Proof

/-- One row of the opcode map: a word `w` selects the row exactly when `w AND mask = value` (R78). -/
structure OpRow where
  mnemonic : String
  value : Word
  mask : Word
  deriving DecidableEq, Repr

/-- Rows 1 to 9 and 19 to 23: the instructions routed by the first nibble or the whole word. -/
def topRows : List OpRow :=
  [⟨"CLS", 0x00E0#16, 0xFFFF#16⟩, ⟨"RET", 0x00EE#16, 0xFFFF#16⟩,
   ⟨"JP", 0x1000#16, 0xF000#16⟩, ⟨"CALL", 0x2000#16, 0xF000#16⟩,
   ⟨"SE_imm", 0x3000#16, 0xF000#16⟩, ⟨"SNE_imm", 0x4000#16, 0xF000#16⟩,
   ⟨"SE_reg", 0x5000#16, 0xF000#16⟩, ⟨"LD_imm", 0x6000#16, 0xF000#16⟩,
   ⟨"ADD_imm", 0x7000#16, 0xF000#16⟩, ⟨"SNE_reg", 0x9000#16, 0xF000#16⟩,
   ⟨"LD_I", 0xA000#16, 0xF000#16⟩, ⟨"JP_V0", 0xB000#16, 0xF000#16⟩,
   ⟨"RND", 0xC000#16, 0xF000#16⟩, ⟨"DRW", 0xD000#16, 0xF000#16⟩]

/-- Rows 10 to 18: family 0x8. -/
def aluRows : List OpRow :=
  [⟨"LD_reg", 0x8000#16, 0xF00F#16⟩, ⟨"OR", 0x8001#16, 0xF00F#16⟩,
   ⟨"AND", 0x8002#16, 0xF00F#16⟩, ⟨"XOR", 0x8003#16, 0xF00F#16⟩,
   ⟨"ADD_reg", 0x8004#16, 0xF00F#16⟩, ⟨"SUB", 0x8005#16, 0xF00F#16⟩,
   ⟨"SHR", 0x8006#16, 0xF00F#16⟩, ⟨"SUBN", 0x8007#16, 0xF00F#16⟩,
   ⟨"SHL", 0x800E#16, 0xF00F#16⟩]

/-- Rows 24 to 34: families 0xE and 0xF. -/
def keyedRows : List OpRow :=
  [⟨"SKP", 0xE09E#16, 0xF0FF#16⟩, ⟨"SKNP", 0xE0A1#16, 0xF0FF#16⟩,
   ⟨"LD_from_DT", 0xF007#16, 0xF0FF#16⟩, ⟨"LD_key", 0xF00A#16, 0xF0FF#16⟩,
   ⟨"LD_to_DT", 0xF015#16, 0xF0FF#16⟩, ⟨"LD_to_ST", 0xF018#16, 0xF0FF#16⟩,
   ⟨"ADD_I", 0xF01E#16, 0xF0FF#16⟩, ⟨"LD_font", 0xF029#16, 0xF0FF#16⟩,
   ⟨"BCD", 0xF033#16, 0xF0FF#16⟩, ⟨"STORE", 0xF055#16, 0xF0FF#16⟩,
   ⟨"LOAD", 0xF065#16, 0xF0FF#16⟩]

/-- The complete opcode map, 34 rows (R78). -/
def opcodeTable : List OpRow := topRows ++ aluRows ++ keyedRows

/-- The word selects the row. -/
def OpRow.selects (r : OpRow) (w : Word) : Bool := w &&& r.mask == r.value

/-- Check 1: the word is one of the instruction set's (R78), not an illegal one (R79). -/
def legalWord (w : Word) : Bool := opcodeTable.any (·.selects w)

/-- The bits of a word that its decoder reads: the low nibble is ignored in families 0x5 and 0x9,
the `y` field in 8xy6 and 8xyE (R80, D5). -/
def careMask (w : Word) : Word :=
  if w &&& 0xF000#16 = 0x5000#16 then 0xFFF0#16
  else if w &&& 0xF000#16 = 0x9000#16 then 0xFFF0#16
  else if w &&& 0xF00F#16 = 0x8006#16 then 0xFF0F#16
  else if w &&& 0xF00F#16 = 0x800E#16 then 0xFF0F#16
  else 0xFFFF#16

/-- Check 2: the word's don't-care bits are zero (R82). -/
def canonicalWord (w : Word) : Bool := w &&& careMask w == w

/-- A well-formed instruction word: legal and canonical. -/
def wellFormedWord (w : Word) : Bool := legalWord w && canonicalWord w

/-- The row of spec/opcode_table.json an instruction stands for, by its mnemonic. -/
def Instr.mnemonic : Instr → String
  | .cls => "CLS" | .ret => "RET" | .jp _ => "JP" | .call _ => "CALL"
  | .seImm _ _ => "SE_imm" | .sneImm _ _ => "SNE_imm" | .seReg _ _ => "SE_reg"
  | .ldImm _ _ => "LD_imm" | .addImm _ _ => "ADD_imm" | .ldReg _ _ => "LD_reg"
  | .orReg _ _ => "OR" | .andReg _ _ => "AND" | .xorReg _ _ => "XOR" | .addReg _ _ => "ADD_reg"
  | .sub _ _ => "SUB" | .shr _ => "SHR" | .subn _ _ => "SUBN" | .shl _ => "SHL"
  | .sneReg _ _ => "SNE_reg" | .ldI _ => "LD_I" | .jpV0 _ => "JP_V0" | .rnd _ _ => "RND"
  | .drw _ _ _ => "DRW" | .skp _ => "SKP" | .sknp _ => "SKNP"
  | .ldFromDt _ => "LD_from_DT" | .ldKey _ => "LD_key" | .ldToDt _ => "LD_to_DT"
  | .ldToSt _ => "LD_to_ST" | .addI _ => "ADD_I" | .ldFont _ => "LD_font" | .bcd _ => "BCD"
  | .store _ => "STORE" | .load _ => "LOAD"

end Sys2Proof
end

