-- ==== Sys2Proof/Decode.lean ====
section
/-! DEFINITION. The fields of an instruction word (30_encoding.md R71), the decoder (R74 to R77, R80),
the encoder written from the same opcode map (R78, R82), and both over bytes in the order of
20_memory.md R50. -/

namespace Sys2Proof

/-! ## Fields -/

/-- `op`, the family: `w[15:12]` (R71). -/
def opField (w : Word) : Nibble := w.extractLsb' 12 4

/-- `x`: `w[11:8]` (R71). -/
def xField (w : Word) : Nibble := w.extractLsb' 8 4

/-- `y`: `w[7:4]` (R71). -/
def yField (w : Word) : Nibble := w.extractLsb' 4 4

/-- `n`: `w[3:0]` (R71). -/
def nField (w : Word) : Nibble := w.extractLsb' 0 4

/-- `kk`: `w[7:0]` (R71). -/
def kkField (w : Word) : Byte := w.extractLsb' 0 8

/-- `nnn`: `w[11:0]` (R71). -/
def nnnField (w : Word) : Addr := w.extractLsb' 0 12

/-! ## Decoder -/

/-- Why bytes decode to no instruction. The four classes of illegal words of R79 all raise
`UnknownOpcode` when executed; `truncated` says only that fewer than two bytes were given. -/
inductive DecodeError where
  /-- `0x0???` other than 00E0 and 00EE (R75). -/
  | unknownSystemWord
  /-- `8xyk` with an undefined key `k` (R76). -/
  | unknownAluKey
  /-- `Exkk` with an undefined low byte (R77, D6). -/
  | unknownKeypadKey
  /-- `Fxkk` with an undefined low byte (R77). -/
  | unknownMiscKey
  /-- fewer than two bytes. -/
  | truncated
  deriving DecidableEq, Repr

/-- Family 0x0: two sub-cases on the full word (R75). -/
def decodeSystem (w : Word) : Except DecodeError Instr :=
  if w = 0x00E0#16 then .ok .cls
  else if w = 0x00EE#16 then .ok .ret
  else .error .unknownSystemWord

/-- Family 0x8, keyed by the low nibble (R76). -/
def decodeAlu (x y key : Nibble) : Except DecodeError Instr :=
  match key with
  | 0x0#4 => .ok (.ldReg x y)
  | 0x1#4 => .ok (.orReg x y)
  | 0x2#4 => .ok (.andReg x y)
  | 0x3#4 => .ok (.xorReg x y)
  | 0x4#4 => .ok (.addReg x y)
  | 0x5#4 => .ok (.sub x y)
  | 0x6#4 => .ok (.shr x)
  | 0x7#4 => .ok (.subn x y)
  | 0xE#4 => .ok (.shl x)
  | _ => .error .unknownAluKey

/-- Family 0xE, keyed by the low byte (R77, D6). -/
def decodeKeypad (x : Nibble) (key : Byte) : Except DecodeError Instr :=
  match key with
  | 0x9E#8 => .ok (.skp x)
  | 0xA1#8 => .ok (.sknp x)
  | _ => .error .unknownKeypadKey

/-- Family 0xF, keyed by the low byte (R77). -/
def decodeMisc (x : Nibble) (key : Byte) : Except DecodeError Instr :=
  match key with
  | 0x07#8 => .ok (.ldFromDt x)
  | 0x0A#8 => .ok (.ldKey x)
  | 0x15#8 => .ok (.ldToDt x)
  | 0x18#8 => .ok (.ldToSt x)
  | 0x1E#8 => .ok (.addI x)
  | 0x29#8 => .ok (.ldFont x)
  | 0x33#8 => .ok (.bcd x)
  | 0x55#8 => .ok (.store x)
  | 0x65#8 => .ok (.load x)
  | _ => .error .unknownMiscKey

/-- Decode a word (R74): total, one of the 34 instructions or a rejection by name. -/
def decode (w : Word) : Except DecodeError Instr :=
  match opField w with
  | 0x0#4 => decodeSystem w
  | 0x1#4 => .ok (.jp (nnnField w))
  | 0x2#4 => .ok (.call (nnnField w))
  | 0x3#4 => .ok (.seImm (xField w) (kkField w))
  | 0x4#4 => .ok (.sneImm (xField w) (kkField w))
  | 0x5#4 => .ok (.seReg (xField w) (yField w))
  | 0x6#4 => .ok (.ldImm (xField w) (kkField w))
  | 0x7#4 => .ok (.addImm (xField w) (kkField w))
  | 0x8#4 => decodeAlu (xField w) (yField w) (nField w)
  | 0x9#4 => .ok (.sneReg (xField w) (yField w))
  | 0xA#4 => .ok (.ldI (nnnField w))
  | 0xB#4 => .ok (.jpV0 (nnnField w))
  | 0xC#4 => .ok (.rnd (xField w) (kkField w))
  | 0xD#4 => .ok (.drw (xField w) (yField w) (nField w))
  | 0xE#4 => decodeKeypad (xField w) (kkField w)
  | _ => decodeMisc (xField w) (kkField w)   -- the one family left, 0xF

/-- The word two consecutive bytes form: the byte at the lower address is the high one (20_memory.md
R50, D2). -/
def wordOfBytes (hi lo : Byte) : Word := hi ++ lo

/-- Decode the head of a byte list, and give the rest back: every instruction is two bytes (R70). -/
def decodeBytes : List Byte → Except DecodeError (Instr × List Byte)
  | hi :: lo :: rest => (decode (wordOfBytes hi lo)).map (·, rest)
  | _ => .error .truncated

/-! ## Encoder -/

/-- Format NNN: a family nibble and a 12-bit address (R72). -/
def encNnn (op : Nibble) (nnn : Addr) : Word := op ++ nnn

/-- Formats XKK and XS: a family nibble, a register number and a byte, immediate or key (R72). -/
def encXkk (op x : Nibble) (kk : Byte) : Word := op ++ x ++ kk

/-- Formats XY and XYN: four nibbles (R72). -/
def encXyn (op x y n : Nibble) : Word := op ++ x ++ y ++ n

/-- The canonical word of an instruction (R78): don't-care bits are zero (R82). -/
def encode : Instr → Word
  | .cls => 0x00E0#16
  | .ret => 0x00EE#16
  | .jp nnn => encNnn 0x1#4 nnn
  | .call nnn => encNnn 0x2#4 nnn
  | .seImm x kk => encXkk 0x3#4 x kk
  | .sneImm x kk => encXkk 0x4#4 x kk
  | .seReg x y => encXyn 0x5#4 x y 0x0#4
  | .ldImm x kk => encXkk 0x6#4 x kk
  | .addImm x kk => encXkk 0x7#4 x kk
  | .ldReg x y => encXyn 0x8#4 x y 0x0#4
  | .orReg x y => encXyn 0x8#4 x y 0x1#4
  | .andReg x y => encXyn 0x8#4 x y 0x2#4
  | .xorReg x y => encXyn 0x8#4 x y 0x3#4
  | .addReg x y => encXyn 0x8#4 x y 0x4#4
  | .sub x y => encXyn 0x8#4 x y 0x5#4
  | .shr x => encXyn 0x8#4 x 0x0#4 0x6#4
  | .subn x y => encXyn 0x8#4 x y 0x7#4
  | .shl x => encXyn 0x8#4 x 0x0#4 0xE#4
  | .sneReg x y => encXyn 0x9#4 x y 0x0#4
  | .ldI nnn => encNnn 0xA#4 nnn
  | .jpV0 nnn => encNnn 0xB#4 nnn
  | .rnd x kk => encXkk 0xC#4 x kk
  | .drw x y n => encXyn 0xD#4 x y n
  | .skp x => encXkk 0xE#4 x 0x9E#8
  | .sknp x => encXkk 0xE#4 x 0xA1#8
  | .ldFromDt x => encXkk 0xF#4 x 0x07#8
  | .ldKey x => encXkk 0xF#4 x 0x0A#8
  | .ldToDt x => encXkk 0xF#4 x 0x15#8
  | .ldToSt x => encXkk 0xF#4 x 0x18#8
  | .addI x => encXkk 0xF#4 x 0x1E#8
  | .ldFont x => encXkk 0xF#4 x 0x29#8
  | .bcd x => encXkk 0xF#4 x 0x33#8
  | .store x => encXkk 0xF#4 x 0x55#8
  | .load x => encXkk 0xF#4 x 0x65#8

/-- A word as the memory holds it, the high byte at the lower address (20_memory.md R50). -/
def bytesOfWord (w : Word) : List Byte := [w.extractLsb' 8 8, w.extractLsb' 0 8]

/-- The first instruction word of a table entry of `nbits` bits with value `w`. -/
def tableWord (nbits w : Nat) : Word := BitVec.ofNat 16 (w % 2 ^ nbits)

/-- What the decoder reads from a word numbered as spec/opcode_table.json numbers it: the word is laid
out as memory holds it and given to the decoder. -/
def decodeTableWord (nbits w : Nat) : Option Instr :=
  match decodeBytes (bytesOfWord (tableWord nbits w)) with
  | .ok (i, _) => some i
  | .error _ => none

end Sys2Proof
end

