-- ==== Sys2Proof/Machine/Ops.lean ====
section
/-! DEFINITION. The named operations over registers, the program counter, memory, the call stack, the
framebuffer and the random input, and the one fault entry. Every read and write of State goes
through these. -/

namespace Sys2Proof.Machine

/-! ## General registers (10_state.md R21, R22) -/

/-- `V[x]`. -/
def State.v (s : State) (x : Nibble) : Byte := s.regs[x.toNat]'x.isLt

/-- `V[x] <- b`. -/
def State.setV (s : State) (x : Nibble) (b : Byte) : State :=
  { s with regs := s.regs.set x.toNat b x.isLt }

/-- The number of `VF` (R22). -/
abbrev flagReg : Nibble := 0xF#4

/-- `VF <- 1` if the flag holds, else `VF <- 0`, all 8 bits (R22). -/
def State.setFlag (s : State) (flag : Bool) : State := s.setV flagReg (if flag then 1#8 else 0#8)

/-! ## Index register, timers (R24, R28, R29) -/

/-- `I <- a`. -/
def State.setIndex (s : State) (a : Word) : State := { s with index := a }

/-- `DT <- b`. -/
def State.setDt (s : State) (b : Byte) : State := { s with dt := b }

/-- `ST <- b`. -/
def State.setSt (s : State) (b : Byte) : State := { s with st := b }

/-! ## Program counter (R25, R26; 43_dispatch_control_flow.md R161) -/

/-- `PC <- n mod 4096`: every new program counter is reduced so (R26, D9). -/
def State.setPc (s : State) (n : Nat) : State := { s with pc := BitVec.ofNat 16 (n % 4096) }

/-- `PC <- next(k)` (00_scope.md R12): past this instruction (`k = 2`) or past the next too
(`k = 4`). -/
def State.advance (s : State) (k : Nat) : State := s.setPc (s.pc.toNat + k)

/-- The end of every conditional skip (R161): past the next instruction if the condition holds. -/
def State.skipIf (s : State) (condition : Bool) : State := s.advance (if condition then 4 else 2)

/-! ## Memory (R34; 20_memory.md R50 to R57) -/

/-- The byte a memory holds at an address: the listed one, else `MEM_INIT`. -/
def Memory.read : Memory → Nat → Byte
  | [], a => Config.memInit a
  | (b, v) :: rest, a => if a = b then v else Memory.read rest a

/-- A memory without the entries of an address. -/
def Memory.without (m : Memory) (a : Nat) : Memory := m.filter (fun c => c.1 != a)

/-- A memory with an entry put before the first entry of a higher address. -/
def Memory.insert : Memory → Nat → Byte → Memory
  | [], a, v => [(a, v)]
  | (b, w) :: rest, a, v =>
    if a < b then (a, v) :: (b, w) :: rest else (b, w) :: Memory.insert rest a v

/-- A memory with one byte written, in canonical form: addresses rise, and writing what an unlisted
cell holds lists nothing. -/
def Memory.write (m : Memory) (a : Nat) (v : Byte) : Memory :=
  if v = Config.memInit a then m.without a else (m.without a).insert a v

/-- The canonical form: addresses strictly rise and lie inside the 4096 cells, and no entry holds
what an unlisted cell holds. -/
abbrev Memory.wf (m : Memory) : Prop :=
  m.Pairwise (fun c d => c.1 < d.1) ∧ ∀ c ∈ m, c.1 < 4096 ∧ c.2 ≠ Config.memInit c.1

/-- `MemRead(a, 1)`: the address is taken mod 4096, and no read faults (20_memory.md R53, D8). -/
def State.memRead (s : State) (a : Nat) : Byte := s.mem.read (a % 4096)

/-- `MemWrite(a, 1, b)`: the address is taken mod 4096, and no write faults (R53, D8). -/
def State.memWrite (s : State) (a : Nat) (b : Byte) : State :=
  { s with mem := s.mem.write (a % 4096) b }

/-- The instruction word the next step fetches: the bytes at `PC` and `PC + 1` mod 4096, high byte
first (R50, D2). -/
def State.fetchWord (s : State) : Word :=
  wordOfBytes (s.memRead s.pc.toNat) (s.memRead (s.pc.toNat + 1))

/-- Store bytes at rising addresses from `a`, each taken mod 4096 (R51). -/
def State.writeBytes (s : State) (a : Nat) : List Byte → State
  | [] => s
  | b :: bs => (s.memWrite a b).writeBytes (a + 1) bs

/-- `for k = 0 to count - 1: MemWrite(a + k, 1, V[k])` (42_misc.md R148). -/
def State.storeRegs (s : State) (a : Nat) : Nat → State
  | 0 => s
  | k + 1 => (s.storeRegs a k).memWrite (a + k) (s.v (BitVec.ofNat 4 k))

/-- `for k = 0 to count - 1: V[k] <- MemRead(a + k, 1)` (42_misc.md R149). -/
def State.loadRegs (s : State) (a : Nat) : Nat → State
  | 0 => s
  | k + 1 => (s.loadRegs a k).setV (BitVec.ofNat 4 k) (s.memRead (a + k))

/-! ## Call stack (R27) -/

/-- `STACK[SP] <- a`, `SP <- SP + 1`; none when 16 entries are in use (43_dispatch_control_flow.md
R164). -/
def State.push (s : State) (a : Word) : Option State :=
  if h : s.sp.val < 16 then
    some { s with stack := s.stack.set s.sp.val a h, sp := ⟨s.sp.val + 1, by omega⟩ }
  else none

/-- The top entry and the state with `SP <- SP - 1`; none when the stack is empty. The entry itself
stays in `STACK` (43_dispatch_control_flow.md R162). -/
def State.pop (s : State) : Option (Word × State) :=
  if h : 0 < s.sp.val then
    some (s.stack[s.sp.val - 1]'(by omega), { s with sp := ⟨s.sp.val - 1, by omega⟩ })
  else none

/-! ## Framebuffer (R32; 40_framebuffer.md R100) -/

/-- `FB[cx][cy]`. -/
def Framebuffer.pixel (f : Framebuffer) (cx : Fin 64) (cy : Fin 32) : Bool := f[cx.val][cy.val]

/-- `FB[cx][cy] <- b`. -/
def Framebuffer.setPixel (f : Framebuffer) (cx : Fin 64) (cy : Fin 32) (b : Bool) : Framebuffer :=
  f.set cx.val (f[cx.val].set cy.val b)

/-- The first `count` bits of a blit, the most significant first (R100): the framebuffer, and
whether a pixel went from on to off. -/
def Framebuffer.blitBits (f : Framebuffer) (b : Byte) (cx : Fin 64) (cy : Fin 32) :
    Nat → Framebuffer × Bool
  | 0 => (f, false)
  | i + 1 =>
    match f.blitBits b cx cy i with
    | (g, hit) =>
      let px : Fin 64 := Fin.ofNat 64 (cx.val + i)
      let bit := b.getMsbD i
      (g.setPixel px cy (g.pixel px cy ^^ bit), hit || (bit && g.pixel px cy))

/-- `blit(b, cx, cy)`: one sprite row of eight pixels, with horizontal wrap (R100). -/
def Framebuffer.blit (f : Framebuffer) (b : Byte) (cx : Fin 64) (cy : Fin 32) : Framebuffer × Bool :=
  f.blitBits b cx cy 8

/-- The first `count` rows of a sprite whose data begin at `a`, at column `vx` and row `vy`, both
wrapped (R102, R104, D10): the framebuffer, and whether any row reported a hit (R103). -/
def State.drawRows (s : State) (a vx vy : Nat) : Nat → Framebuffer × Bool
  | 0 => (s.fb, false)
  | r + 1 =>
    match s.drawRows a vx vy r with
    | (f, collision) =>
      match f.blit (s.memRead (a + r)) (Fin.ofNat 64 vx) (Fin.ofNat 32 (vy + r)) with
      | (g, hit) => (g, collision || hit)

/-- The pixel of the state's framebuffer. -/
def State.pixel (s : State) (cx : Fin 64) (cy : Fin 32) : Bool := s.fb.pixel cx cy

/-- `FB <- f`. -/
def State.setFb (s : State) (f : Framebuffer) : State := { s with fb := f }

/-- The framebuffer with every pixel off (R101). -/
def Framebuffer.blank : Framebuffer := Vector.replicate 64 (Vector.replicate 32 false)

/-! ## Random input (R33, D17) -/

/-- `RND` as the next Cxkk samples it: the oldest queued byte, else the free stream at this place. -/
def State.randomSample (s : State) : Byte :=
  match s.randomIn with
  | b :: _ => b
  | [] => Config.randomByte s.randomCount

/-- One random byte is consumed (44_immediate_index_random.md R193). -/
def State.consumeRandom (s : State) : State :=
  { s with randomIn := s.randomIn.tail, randomCount := s.randomCount + 1 }

/-! ## Faults (60_exceptions.md R200, R204) -/

/-- `raise <Fault>(a, w)`: the one fault entry. The step ends with the fault, the address of the
instruction and its word; nothing of the state is changed, and control goes nowhere inside the
machine (R204, D13). -/
def State.raise (s : State) (fault : Word → Word → Fault) (word : Word) : Answer :=
  .fault (fault s.pc word)

/-- There is no return-from-trap instruction (R209); what stands in its place is the host's recovery
from an unknown word, `PC <- (PC + 2) mod 4096`, made between steps (R202, R209). -/
def State.skipWord (s : State) : State := s.advance 2

end Sys2Proof.Machine
end

