-- ==== Sys2Proof/Machine/Operands.lean ====
section
/-! DEFINITION. The operand forms that are more than one register or field: the key a register names,
the lowest pressed key, and the decimal digits of a byte. -/

namespace Sys2Proof.Machine

/-- The number of the key `V[x]` names: its low four bits (43_dispatch_control_flow.md R170, D7). -/
def State.keyNumber (s : State) (x : Nibble) : Nibble := (s.v x).extractLsb' 0 4

/-- `KEYS[k] = 1` (10_state.md R31). -/
def State.keyDown (s : State) (k : Nibble) : Bool := s.keys[k.toNat]'k.isLt

/-- The place of the first `true`, if there is one. -/
def firstPressed : List Bool → Option Nat
  | [] => none
  | true :: _ => some 0
  | false :: rest => (firstPressed rest).map (· + 1)

/-- The smallest `k` with `KEYS[k] = 1`, none when no key is pressed (42_misc.md R142, D15). -/
def State.lowestKey (s : State) : Option Nat := firstPressed s.keys.toList

/-- The hundreds, tens and units digit of a byte, one a byte (42_misc.md R147). -/
def decimalDigits (b : Byte) : List Byte :=
  [BitVec.ofNat 8 (b.toNat / 100), BitVec.ofNat 8 (b.toNat / 10 % 10), BitVec.ofNat 8 (b.toNat % 10)]

end Sys2Proof.Machine
end

