-- ==== Sys2Proof/Machine/Alu.lean ====
section
/-! DEFINITION. Family 0x8 (41_alu.md): operands first, then the result into `V[x]`, then the flag into
`VF`, then the program counter (R120, 00_scope.md R13, D11). -/

namespace Sys2Proof.Machine

/-- The end of an instruction of the family that defines no flag. -/
def State.aluResult (s : State) (x : Nibble) (result : Byte) : State := (s.setV x result).advance 2

/-- The end of an instruction of the family that defines a flag: the flag is written last. -/
def State.aluFlagged (s : State) (x : Nibble) (result : Byte) (flag : Bool) : State :=
  ((s.setV x result).setFlag flag).advance 2

/-- 8xy0 LD Vx, Vy (R121). -/
def execLdReg (x y : Nibble) (s : State) : Answer := .next (s.aluResult x (s.v y))

/-- 8xy1 OR (R122). -/
def execOrReg (x y : Nibble) (s : State) : Answer := .next (s.aluResult x (s.v x ||| s.v y))

/-- 8xy2 AND (R123). -/
def execAndReg (x y : Nibble) (s : State) : Answer := .next (s.aluResult x (s.v x &&& s.v y))

/-- 8xy3 XOR (R124). -/
def execXorReg (x y : Nibble) (s : State) : Answer := .next (s.aluResult x (s.v x ^^^ s.v y))

/-- 8xy4 ADD (R125). -/
def execAddReg (x y : Nibble) (s : State) : Answer :=
  .next (s.aluFlagged x (BitVec.ofNat 8 ((s.v x).toNat + (s.v y).toNat)) (carryFlag (s.v x) (s.v y)))

/-- 8xy5 SUB (R126). -/
def execSub (x y : Nibble) (s : State) : Answer :=
  .next (s.aluFlagged x (s.v x - s.v y) (greaterFlag (s.v x) (s.v y)))

/-- 8xy6 SHR (R127): the operand is `V[x]`. -/
def execShr (x : Nibble) (s : State) : Answer :=
  .next (s.aluFlagged x (BitVec.ofNat 8 ((s.v x).toNat / 2)) (lowBitFlag (s.v x)))

/-- 8xy7 SUBN (R128). -/
def execSubn (x y : Nibble) (s : State) : Answer :=
  .next (s.aluFlagged x (s.v y - s.v x) (greaterFlag (s.v y) (s.v x)))

/-- 8xyE SHL (R129, D20): the operand is `V[x]`. -/
def execShl (x : Nibble) (s : State) : Answer :=
  .next (s.aluFlagged x (BitVec.ofNat 8 (2 * (s.v x).toNat)) (highBitFlag (s.v x)))

end Sys2Proof.Machine
end

