-- ==== Sys2Proof/Machine/Control.lean ====
section
/-! DEFINITION. The control transfers of 43_dispatch_control_flow.md: RET, JP, CALL, the conditional
skips, JP V0, SKP and SKNP. -/

namespace Sys2Proof.Machine

/-- 00EE RET (R162): the address of the CALL is popped and 2 is added (90_conflicts.md C6); on an empty
stack `CallStackUnderflow` (60_exceptions.md R203). -/
def execRet (s : State) : Answer :=
  match s.pop with
  | some (a, t) => .next (t.setPc (a.toNat + 2))
  | none => s.raise .callStackUnderflow (encode .ret)

/-- 1nnn JP (R163). -/
def execJp (nnn : Addr) (s : State) : Answer := .next (s.setPc nnn.toNat)

/-- 2nnn CALL (R164): the address of this CALL is pushed; with 16 entries in use `CallStackOverflow`
(60_exceptions.md R205, D12). -/
def execCall (nnn : Addr) (s : State) : Answer :=
  match s.push s.pc with
  | some t => .next (t.setPc nnn.toNat)
  | none => s.raise .callStackOverflow (encode (.call nnn))

/-- 3xkk SE Vx, kk (R165, D4). -/
def execSeImm (x : Nibble) (kk : Byte) (s : State) : Answer := .next (s.skipIf (s.v x == kk))

/-- 4xkk SNE Vx, kk (R166, D4). -/
def execSneImm (x : Nibble) (kk : Byte) (s : State) : Answer := .next (s.skipIf (s.v x != kk))

/-- 5xy- SE Vx, Vy (R167, D4). -/
def execSeReg (x y : Nibble) (s : State) : Answer := .next (s.skipIf (s.v x == s.v y))

/-- 9xy- SNE Vx, Vy (R168, D4). -/
def execSneReg (x y : Nibble) (s : State) : Answer := .next (s.skipIf (s.v x != s.v y))

/-- Bnnn JP V0, nnn (R169, D9): the register is always `V[0]`. -/
def execJpV0 (nnn : Addr) (s : State) : Answer := .next (s.setPc (nnn.toNat + (s.v 0#4).toNat))

/-- Ex9E SKP Vx (R170, D6, D7). -/
def execSkp (x : Nibble) (s : State) : Answer := .next (s.skipIf (s.keyDown (s.keyNumber x)))

/-- ExA1 SKNP Vx (R171, D6, D7). -/
def execSknp (x : Nibble) (s : State) : Answer := .next (s.skipIf (!s.keyDown (s.keyNumber x)))

end Sys2Proof.Machine
end

