-- ==== Sys2Proof/Machine/Framebuffer.lean ====
section
/-! DEFINITION. The instructions of 40_framebuffer.md: CLS and DRW. -/

namespace Sys2Proof.Machine

/-- 00E0 CLS (R101). -/
def execCls (s : State) : Answer := .next ((s.setFb Framebuffer.blank).advance 2)

/-- Dxyn DRW (R102 to R107): coordinates, `I` and the sprite are read first, `VF` is written last, also
when `n = 0`. -/
def execDrw (x y n : Nibble) (s : State) : Answer :=
  match s.drawRows s.index.toNat (s.v x).toNat (s.v y).toNat n.toNat with
  | (f, collision) => .next (((s.setFb f).setFlag collision).advance 2)

end Sys2Proof.Machine
end

