-- ==== Sys2Proof/Machine/Immediate.lean ====
section
/-! DEFINITION. The instructions of 44_immediate_index_random.md: LD and ADD immediate, LD I and RND. -/

namespace Sys2Proof.Machine

/-- 6xkk LD Vx, kk (R190). -/
def execLdImm (x : Nibble) (kk : Byte) (s : State) : Answer := .next ((s.setV x kk).advance 2)

/-- 7xkk ADD Vx, kk (R191): wraps, no flag. -/
def execAddImm (x : Nibble) (kk : Byte) (s : State) : Answer :=
  .next ((s.setV x (BitVec.ofNat 8 ((s.v x).toNat + kk.toNat))).advance 2)

/-- Annn LD I, nnn (R192). -/
def execLdI (nnn : Addr) (s : State) : Answer := .next ((s.setIndex (nnn.setWidth 16)).advance 2)

/-- Cxkk RND Vx, kk (R193, D17): exactly one random byte is consumed. -/
def execRnd (x : Nibble) (kk : Byte) (s : State) : Answer :=
  .next ((s.consumeRandom.setV x (s.randomSample &&& kk)).advance 2)

end Sys2Proof.Machine
end

