-- ==== Sys2Proof/Machine/Misc.lean ====
section
/-! DEFINITION. Family 0xF (42_misc.md): timers, the key wait, the index register, decimal digits and
the block transfers. None writes `VF` as a flag (R140). -/

namespace Sys2Proof.Machine

/-- Fx07 LD Vx, DT (R141). -/
def execLdFromDt (x : Nibble) (s : State) : Answer := .next ((s.setV x s.dt).advance 2)

/-- Fx0A LD Vx, K (R142, D15): with no key pressed nothing changes and the step answers
`AwaitingInput` (`Machine.report`); else the lowest pressed key's number. -/
def execLdKey (x : Nibble) (s : State) : Answer :=
  match s.lowestKey with
  | none => .next s
  | some k => .next ((s.setV x (BitVec.ofNat 8 k)).advance 2)

/-- Fx15 LD DT, Vx (R143). -/
def execLdToDt (x : Nibble) (s : State) : Answer := .next ((s.setDt (s.v x)).advance 2)

/-- Fx18 LD ST, Vx (R144). -/
def execLdToSt (x : Nibble) (s : State) : Answer := .next ((s.setSt (s.v x)).advance 2)

/-- Fx1E ADD I, Vx (R145): wraps at 16 bits, no flag. -/
def execAddI (x : Nibble) (s : State) : Answer :=
  .next ((s.setIndex (BitVec.ofNat 16 (s.index.toNat + (s.v x).toNat))).advance 2)

/-- Fx29 LD F, Vx (R146): `V[x]` is not masked. -/
def execLdFont (x : Nibble) (s : State) : Answer :=
  .next ((s.setIndex (BitVec.ofNat 16 (5 * (s.v x).toNat))).advance 2)

/-- Fx33 LD B, Vx (R147): `I` is unchanged. -/
def execBcd (x : Nibble) (s : State) : Answer :=
  .next ((s.writeBytes s.index.toNat (decimalDigits (s.v x))).advance 2)

/-- Fx55 LD [I], Vx (R148, D19): `x + 1` registers; `I` is unchanged. -/
def execStore (x : Nibble) (s : State) : Answer :=
  .next ((s.storeRegs s.index.toNat (x.toNat + 1)).advance 2)

/-- Fx65 LD Vx, [I] (R149, D19): `x + 1` registers; `I` is unchanged. -/
def execLoad (x : Nibble) (s : State) : Answer :=
  .next ((s.loadRegs s.index.toNat (x.toNat + 1)).advance 2)

end Sys2Proof.Machine
end

