-- ==== Sys2Proof/Machine/Environment.lean ====
section
/-! DEFINITION. What the collaborators may do between steps (60_exceptions.md R216 to R221): the tick,
the keypad's write, a random byte supplied, the program loader, and the gap before a step. None of
these moves happens during a step (00_scope.md R17). -/

namespace Sys2Proof.Machine

/-- A timer decremented toward zero: a timer at 0 stays at 0 (10_state.md R30). -/
def countDown (b : Byte) : Byte := if b = 0#8 then 0#8 else b - 1#8

/-- One tick of the timer collaborator (R30, R219). -/
def State.tick (s : State) : State := { s with dt := countDown s.dt, st := countDown s.st }

/-- Any number of ticks (R30). -/
def State.ticks (s : State) : Nat → State
  | 0 => s
  | n + 1 => s.tick.ticks n

/-- The keypad collaborator writes the key levels (R31, R220). -/
def State.setKeys (s : State) (keys : Keys) : State := { s with keys := keys }

/-- The randomness collaborator queues a byte (R33, R221). -/
def State.supplyRandom (s : State) (b : Byte) : State := { s with randomIn := s.randomIn ++ [b] }

/-- The loader writes a program image at 512 upward, before the first step (R217); an image longer than
3584 bytes does not fit, and the model says nothing of it (U20, notes/assumptions/12.md). -/
def State.loadImage (s : State) (image : List Byte) : Option State :=
  if image.length ≤ 3584 then some (s.writeBytes 512 image) else none

/-- The loader writes the font table at 0 upward, before the first step (R216; 20_memory.md R56,
70_reset_and_hazards.md R232). The glyph bytes are the loader's; the machine holds none. DESIGN
CHOICE, unsafe (notes/assumptions/14.md): the spec gives no length of the table, and a list of any
length is written, past 511 into the program area and past 4095 around to 0. -/
def State.loadGlyphs (s : State) (glyphs : List Byte) : State := s.writeBytes 0 glyphs

/-- The start of a step: the environment's moves in the gap before it happen, and the core samples the
keys. Where State holds no further gap there are no ticks and the keys stay as they are. -/
def State.beginStep (s : State) : State :=
  match s.gaps with
  | [] => s
  | g :: rest => { (s.ticks g.ticks).setKeys g.keys with gaps := rest }

end Sys2Proof.Machine
end

