-- ==== Sys2Proof/Machine/Step.lean ====
section
/-! DEFINITION. The step (43_dispatch_control_flow.md R160): the gap before it, the fetch, the decode,
the execution. -/

namespace Sys2Proof.Machine

/-- Fetch the word at `PC`, decode it, execute it; a word that is no instruction raises
`UnknownOpcode` with its address and itself (R160, 60_exceptions.md R202). -/
def step (s : State) : Host.Outcome State Fault Refusal :=
  match decode s.beginStep.fetchWord with
  | .ok i => exec i s.beginStep
  | .error _ => s.beginStep.raise .unknownOpcode s.beginStep.fetchWord

/-- The state with a table word's bytes stored where the next step fetches: at `PC` and `PC + 1`. A
program comes to run by being loaded from outside (60_exceptions.md R217, notes/assumptions/9.md);
this stands for that load. -/
def State.withFetchWord (s : State) (nbits w : Nat) : State :=
  s.writeBytes s.pc.toNat (bytesOfWord (tableWord nbits w))

end Sys2Proof.Machine
end

