-- ==== Sys2Proof/Machine/Report.lean ====
section
/-! DEFINITION. The outputs of a step that are no state (00_scope.md R14): `StepResult`
(60_exceptions.md R200) and `display_dirty` (40_framebuffer.md R106), computed from the state the step
starts in. -/

namespace Sys2Proof.Machine

/-- The code of a fault (R201, D13). -/
def Fault.code : Fault → Nat
  | .unknownOpcode _ _ => 1
  | .callStackUnderflow _ _ => 2
  | .callStackOverflow _ _ => 3

/-- The address a fault reports (R200). -/
def Fault.addr : Fault → Word
  | .unknownOpcode a _ | .callStackUnderflow a _ | .callStackOverflow a _ => a

/-- The instruction word a fault reports (R200). -/
def Fault.word : Fault → Word
  | .unknownOpcode _ w | .callStackUnderflow _ w | .callStackOverflow _ w => w

/-- `StepResult` (R200, D13). -/
inductive StepResult where
  /-- the instruction completed. -/
  | ok
  /-- Fx0A found no key pressed (R214). -/
  | awaitingInput
  /-- the instruction could not be executed. -/
  | fault (f : Fault)
  deriving DecidableEq, Repr

/-- Both outputs of one step. -/
structure StepReport where
  result : StepResult
  displayDirty : Bool
  deriving DecidableEq, Repr

/-- Whether an instruction finds itself waiting: only Fx0A, and only with no key pressed (R142, R214). -/
def awaitsInput (i : Instr) (s : State) : Bool :=
  match i with
  | .ldKey _ => s.lowestKey.isNone
  | _ => false

/-- Whether an instruction writes the framebuffer (R106). -/
def drawsDisplay : Instr → Bool
  | .cls => true
  | .drw _ _ _ => true
  | _ => false

/-- The outputs of a step that executed `i` in `s` and answered a next state (R142, R106). -/
def reportOf (i : Instr) (s : State) : StepReport :=
  if awaitsInput i s then ⟨.awaitingInput, false⟩ else ⟨.ok, drawsDisplay i⟩

/-- The outputs of the step from `s` (R160, R200, R106). The two `none` arms are never taken: no step is
refused, and a step that answers a next state decoded an instruction. -/
def report (s : State) : Option StepReport :=
  match step s with
  | .fault f => some ⟨.fault f, false⟩
  | .refused _ => none
  | .next _ =>
    match decode s.beginStep.fetchWord with
    | .ok i => some (reportOf i s.beginStep)
    | .error _ => none

end Sys2Proof.Machine
end

