-- ==== Sys2Proof/Safety.lean ====
section
/-! DEFINITION. The terms claims are stated in: the invariant of the states a run reaches, what it is
for an instruction to complete, what an instruction leaves unchanged (10_state.md R38), the bit a
sprite lays on a pixel (40_framebuffer.md R104), and the end of a program (70_reset_and_hazards.md
R243). -/

namespace Sys2Proof.Machine

/-! ## The invariant -/

/-- What holds in every state a run reaches from reset: `PC` is below 4096 (R26), the memory is in its
canonical form, and each valid stack entry is an address below 4096 (R27). `SP` is at most 16 by its
type (R27). -/
abbrev State.Inv (s : State) : Prop :=
  s.pc.toNat < 4096 ∧ s.mem.wf ∧ ∀ j : Fin 16, j.val < s.sp.val → s.stack[j.val].toNat < 4096

/-! ## Completion and frames -/

/-- The instruction completes: `exec` answers a next state, and it is as described. -/
def Completes (i : Instr) (s : State) (after : State → Prop) : Prop :=
  ∃ t, exec i s = .next t ∧ after t

/-- The program counter moved on by `k`, mod 4096 (00_scope.md R12, `next(k)`). -/
def Advanced (k : Nat) (s t : State) : Prop := t.pc.toNat = (s.pc.toNat + k) % 4096

/-- The parts of the state beside the general registers and the program counter. -/
inductive Part where
  | index | mem | stack | dt | st | fb | random
  deriving DecidableEq, Repr

/-- `t` differs from `s` at most in the program counter, in the registers `xs` and in the parts `ps`.
Memory is compared byte by byte and the framebuffer pixel by pixel; the key levels and the gaps are
always the same, since no instruction writes them (R31). -/
def SameBut (xs : List Nibble) (ps : List Part) (s t : State) : Prop :=
  (∀ j, j ∉ xs → t.v j = s.v j) ∧
  (.index ∉ ps → t.index = s.index) ∧
  (.mem ∉ ps → ∀ a, t.memRead a = s.memRead a) ∧
  (.stack ∉ ps → t.sp = s.sp ∧ t.stack = s.stack) ∧
  (.dt ∉ ps → t.dt = s.dt) ∧
  (.st ∉ ps → t.st = s.st) ∧
  (.fb ∉ ps → ∀ cx cy, t.pixel cx cy = s.pixel cx cy) ∧
  (.random ∉ ps → t.randomIn = s.randomIn ∧ t.randomCount = s.randomCount) ∧
  t.keys = s.keys ∧ t.gaps = s.gaps

/-- The registers an instruction may write (R38): its destination, and `VF` where it defines a flag. -/
def writesRegs : Instr → List Nibble
  | .ldImm x _ | .addImm x _ | .ldReg x _ | .orReg x _ | .andReg x _ | .xorReg x _ => [x]
  | .addReg x _ | .sub x _ | .shr x | .subn x _ | .shl x => [x, flagReg]
  | .rnd x _ | .ldFromDt x | .ldKey x => [x]
  | .drw _ _ _ => [flagReg]
  | .load x => (List.range (x.toNat + 1)).map (BitVec.ofNat 4)
  | .cls | .ret | .jp _ | .call _ | .seImm _ _ | .sneImm _ _ | .seReg _ _ | .sneReg _ _ => []
  | .ldI _ | .jpV0 _ | .skp _ | .sknp _ | .ldToDt _ | .ldToSt _ | .addI _ | .ldFont _ => []
  | .bcd _ | .store _ => []

/-- The other parts an instruction may write (R38). -/
def writesParts : Instr → List Part
  | .cls | .drw _ _ _ => [.fb]
  | .ret | .call _ => [.stack]
  | .ldI _ | .addI _ | .ldFont _ => [.index]
  | .rnd _ _ => [.random]
  | .ldToDt _ => [.dt]
  | .ldToSt _ => [.st]
  | .bcd _ | .store _ => [.mem]
  | .jp _ | .seImm _ _ | .sneImm _ _ | .seReg _ _ | .sneReg _ _ | .jpV0 _ | .skp _ | .sknp _ => []
  | .ldImm _ _ | .addImm _ _ | .ldReg _ _ | .orReg _ _ | .andReg _ _ | .xorReg _ _ => []
  | .addReg _ _ | .sub _ _ | .shr _ | .subn _ _ | .shl _ => []
  | .ldFromDt _ | .ldKey _ | .load _ => []

/-- How many bytes, from address `I`, an instruction stores (20_memory.md R64). -/
def storesBytes : Instr → Nat
  | .bcd _ => 3
  | .store x => x.toNat + 1
  | _ => 0

/-! ## Sprites -/

/-- The bit a sprite of `n` rows at `a`, drawn at column `vx` and row `vy`, lays on a pixel (R104): the
pixel `i` columns right of `vx` and `r` rows below `vy`, both wrapped, gets bit `i`, counted from
the most significant, of row `r`; outside the sprite there is none. -/
def State.spriteBit (s : State) (a vx vy n : Nat) (cx : Fin 64) (cy : Fin 32) : Bool :=
  let i := (cx.val + 64 - vx % 64) % 64
  let r := (cy.val + 32 - vy % 32) % 32
  decide (i < 8) && decide (r < n) && (s.memRead (a + r)).getMsbD i

/-! ## Isolation -/

/-- An answer with a function applied to the next state. -/
def Answer.mapNext (f : State → State) : Answer → Answer
  | .next t => .next (f t)
  | .fault r => .fault r
  | .refused r => .refused r

/-- The state with every stack entry at `SP` and above set to 0. Two states that agree after it differ
only in entries that are not valid (R27). -/
def State.dropStale (s : State) : State :=
  { s with stack := Vector.ofFn fun j : Fin 16 => if j.val < s.sp.val then s.stack[j.val] else 0#16 }

/-! ## The end of a program -/

/-- The program has stopped (R243 (a), D26): the word at `PC` is a jump to `PC`. -/
def State.Stopped (s : State) : Prop :=
  ∃ nnn : Addr, decode s.fetchWord = .ok (.jp nnn) ∧ nnn.toNat = s.pc.toNat

end Sys2Proof.Machine
end

