-- ==== Sys2Proof/Certificates/Slice0/Obligations.lean ====
section
/-! DEFINITION. The statements for the provers. Each docstring names the rule it formalises; where a
clause rests on a point the spec marks as its own decision, or on a choice of the model, the docstring
says so. -/

open Sys2Proof Sys2Proof.Machine

/-! ## Encoding -/

/-- R74, R78, R82: decoding the canonical word of any instruction gives the instruction back, with every
operand at every value. The words of CLS, RET, SKP and SKNP are the spec's decisions D3 and D6. -/
def Obligations.DecodeUndoesEncode : Prop := ∀ i : Instr, decode (encode i) = .ok i

/-- R80, R82 (decisions D5, D21): encoding what a word decodes to gives the word back, but for the bits
the decoder ignores, which become 0. -/
def Obligations.EncodeUndoesDecode : Prop :=
  ∀ (w : Word) (i : Instr), decode w = .ok i → encode i = w &&& careMask w

/-- R74 and R78 describe one decoder: a word decodes to an instruction exactly when it selects a row of
the opcode map, and then to that row's instruction. The rows of CLS, RET, SKP and SKNP are the spec's
decisions D3 and D6 (log entry 11). -/
def Obligations.DecodeFollowsOpcodeMap : Prop :=
  (∀ w : Word, ∀ r ∈ opcodeTable, r.selects w = true →
    ∃ i, decode w = .ok i ∧ i.mnemonic = r.mnemonic) ∧
  (∀ (w : Word) (i : Instr), decode w = .ok i →
    ∃ r ∈ opcodeTable, r.selects w = true ∧ r.mnemonic = i.mnemonic)

/-- R78: no word matches two rows of the opcode map, those of CLS, RET (decision D3), SKP and SKNP
(decision D6, log entry 11) included. -/
def Obligations.NoWordSelectsTwoRows : Prop :=
  ∀ w : Word, ∀ q ∈ opcodeTable, ∀ r ∈ opcodeTable, q.selects w = true → r.selects w = true → q = r

/-- R79: the illegal words, class by class (family 0xE and the two words of family 0x0 by the spec's
decisions D6 and D3), and a whole word is never rejected for its length. -/
def Obligations.IllegalWordsByClass : Prop :=
  ∀ w : Word,
    (decode w = .error .unknownSystemWord ↔ w.toNat < 0x1000 ∧ w ≠ 0x00E0#16 ∧ w ≠ 0x00EE#16) ∧
    (decode w = .error .unknownAluKey ↔ opField w = 0x8#4 ∧
      nField w ∈ [0x8#4, 0x9#4, 0xA#4, 0xB#4, 0xC#4, 0xD#4, 0xF#4]) ∧
    (decode w = .error .unknownKeypadKey ↔ opField w = 0xE#4 ∧ kkField w ∉ [0x9E#8, 0xA1#8]) ∧
    (decode w = .error .unknownMiscKey ↔ opField w = 0xF#4 ∧ kkField w ∉
      [0x07#8, 0x0A#8, 0x15#8, 0x18#8, 0x1E#8, 0x29#8, 0x33#8, 0x55#8, 0x65#8]) ∧
    decode w ≠ .error .truncated

/-- R76: family 0x8 is keyed by the low nibble; the nine defined keys decode, the seven others are
unknown. -/
def Obligations.FamilyEightKeys : Prop :=
  ∀ w : Word, opField w = 0x8#4 →
    ((∃ i, decode w = .ok i) ↔
      nField w ∈ [0x0#4, 0x1#4, 0x2#4, 0x3#4, 0x4#4, 0x5#4, 0x6#4, 0x7#4, 0xE#4]) ∧
    (decode w = .error .unknownAluKey ↔
      nField w ∈ [0x8#4, 0x9#4, 0xA#4, 0xB#4, 0xC#4, 0xD#4, 0xF#4])

/-- R84: the fields of every word rebuild it, and the wide fields agree with the narrow ones. -/
def Obligations.FieldsRebuildWord : Prop :=
  ∀ w : Word,
    (opField w).toNat * 4096 + (xField w).toNat * 256 + (yField w).toNat * 16 + (nField w).toNat
      = w.toNat ∧
    (kkField w).toNat = (yField w).toNat * 16 + (nField w).toNat ∧
    (kkField w).toNat = w.toNat % 256 ∧
    (nnnField w).toNat = (xField w).toNat * 256 + (yField w).toNat * 16 + (nField w).toNat ∧
    (nnnField w).toNat = w.toNat % 4096

/-- Words written out from the patterns of R78, one of each format, decode to the instructions they
stand for. The word 0x00E0 is the spec's decision D3 and the key 0xA1 its decision D6 (log entry 11). A
check of a few words. -/
def Obligations.SampleWordsDecode : Prop :=
  decode 0x00E0#16 = .ok .cls ∧
  decode 0x2ABC#16 = .ok (.call 0xABC#12) ∧
  decode 0x73F1#16 = .ok (.addImm 0x3#4 0xF1#8) ∧
  decode 0x8A57#16 = .ok (.subn 0xA#4 0x5#4) ∧
  decode 0xD12F#16 = .ok (.drw 0x1#4 0x2#4 0xF#4) ∧
  decode 0xEBA1#16 = .ok (.sknp 0xB#4) ∧
  decode 0xFC33#16 = .ok (.bcd 0xC#4)

/-! ## The step -/

/-- R160: when the two bytes at the program counter decode to an instruction, the step is the execution
of that instruction in the state after the gap before the step; and the gap (R30, R31, decisions D16,
D25; that it stands in State is the model's choice, log entry 5) lowers the timers by its ticks,
sets the key levels, and changes nothing else. With no gap in State the step is `exec` at `s`. -/
def Obligations.StepRunsDecodedInstruction : Prop :=
  ∀ (s : State) (i : Instr),
    decodeBytes [s.memRead s.pc.toNat, s.memRead (s.pc.toNat + 1)] = .ok (i, []) →
    step s = exec i s.beginStep ∧
    (s.gaps = [] → s.beginStep = s) ∧
    ∀ g rest, s.gaps = g :: rest →
      s.beginStep = { s with dt := BitVec.ofNat 8 (s.dt.toNat - g.ticks),
                             st := BitVec.ofNat 8 (s.st.toNat - g.ticks),
                             keys := g.keys, gaps := rest }

/-- R50 (decision D2), R53 (decision D8): the fetched word is the byte at `PC` times 256 plus the byte at
`(PC + 1) mod 4096`. -/
def Obligations.FetchIsBigEndian : Prop :=
  ∀ s : State, s.pc.toNat < 4096 →
    s.fetchWord.toNat = (s.mem.read s.pc.toNat).toNat * 256 +
      (s.mem.read ((s.pc.toNat + 1) % 4096)).toNat

/-- R202, with the words of R79 (decisions D3 and D6, log entry 11, for families 0x0 and 0xE) and the
fault's form of R200 (decision D13): a step raises `UnknownOpcode` exactly when the fetched word is
illegal, and reports its address and itself; the host's recovery adds 2 to `PC` mod 4096 and changes
nothing else. -/
def Obligations.IllegalWordRaisesUnknownOpcode : Prop :=
  (∀ (s : State) (a w : Word), step s = .fault (.unknownOpcode a w) ↔
    a = s.pc ∧ w = s.fetchWord ∧ legalWord s.fetchWord = false) ∧
  ∀ s : State, Advanced 2 s s.skipWord ∧ SameBut [] [] s s.skipWord

/-- R201 (decision D13; D12 for the full stack, D3 for the word 0x00EE, D3 and D6 for which words are
illegal, log entry 11): a step that ends in a fault ends in one of the three, each under its condition,
and reports the address and the word of the instruction. -/
def Obligations.OnlyThreeFaults : Prop :=
  ∀ (s : State) (f : Fault), step s = .fault f →
    f.addr = s.pc ∧ f.word = s.fetchWord ∧
    (f.code = 1 ∧ legalWord s.fetchWord = false ∨
     f.code = 2 ∧ s.fetchWord = 0x00EE#16 ∧ s.sp.val = 0 ∨
     f.code = 3 ∧ opField s.fetchWord = 0x2#4 ∧ s.sp.val = 16)

/-- R160, R213, R243 (decision D26, "`step` is total"): no step is refused; every one answers a next
state or a fault. -/
def Obligations.NoStepIsRefused : Prop :=
  ∀ s : State, (∃ t, step s = .next t) ∨ ∃ f, step s = .fault f

/-- R161 (decision D9; D4 and D7 for the skips, D12 for RET, D15 for Fx0A, log entry 11): the new
program counter of every instruction that answers a next state. -/
def Obligations.ProgramCounterPolicy : Prop :=
  ∀ (i : Instr) (s t : State), exec i s = .next t →
    match i with
    | .jp nnn | .call nnn => t.pc.toNat = nnn.toNat
    | .jpV0 nnn => t.pc.toNat = (nnn.toNat + (s.v 0#4).toNat) % 4096
    | .ret => ∃ h : 0 < s.sp.val, t.pc.toNat = ((s.stack[s.sp.val - 1]'(by omega)).toNat + 2) % 4096
    | .seImm x kk => Advanced (if s.v x = kk then 4 else 2) s t
    | .sneImm x kk => Advanced (if s.v x ≠ kk then 4 else 2) s t
    | .seReg x y => Advanced (if s.v x = s.v y then 4 else 2) s t
    | .sneReg x y => Advanced (if s.v x ≠ s.v y then 4 else 2) s t
    | .skp x => Advanced (if s.keys[(s.v x).toNat % 16] = true then 4 else 2) s t
    | .sknp x => Advanced (if s.keys[(s.v x).toNat % 16] = false then 4 else 2) s t
    | .ldKey _ => if ∃ k : Fin 16, s.keys[k.val] = true then Advanced 2 s t else t.pc = s.pc
    | _ => Advanced 2 s t

/-! ## The invariant -/

/-- R26 (decision D9), R27: every step keeps the program counter and the valid stack entries below 4096,
and the memory in its canonical form (the model's own). -/
def Obligations.StepKeepsInvariant : Prop :=
  ∀ s t : State, s.Inv → step s = .next t → t.Inv

/-- The invariant holds at reset, with nothing loaded and with any canonical `MEM_INIT` (R36; decision
D22). -/
def Obligations.ResetHasInvariant : Prop :=
  State.reset.Inv ∧ ∀ m : Memory, m.wf → (State.resetWith m).Inv

/-- R216 (decision D1): these moves between steps keep the invariant: a tick or any number of them, the
keypad's write, a queued random byte (log entry 4), the host's recovery from an unknown word, the gap
before a step (log entry 5), the loader's image (log entry 12) and glyphs (log entry 14), and placing
an instruction word (log entry 9). Left out are the host's other changes of `PC` or of any state after
a fault (log entry 13), which need not keep it, and its reset, which is `ResetHasInvariant`. -/
def Obligations.EnvironmentKeepsInvariant : Prop :=
  ∀ s : State, s.Inv →
    s.tick.Inv ∧ (∀ n, (s.ticks n).Inv) ∧ (∀ k, (s.setKeys k).Inv) ∧ (∀ b, (s.supplyRandom b).Inv) ∧
    s.skipWord.Inv ∧ s.beginStep.Inv ∧ (∀ image t, s.loadImage image = some t → t.Inv) ∧
    (∀ glyphs, (s.loadGlyphs glyphs).Inv) ∧
    ∀ nbits w, (s.withFetchWord nbits w).Inv

/-! ## Reset -/

/-- R36 (decisions D18, D22): what every piece of state holds after reset with given memory contents; the
zeros are the spec's own choice (log entries 2, 3), the empty schedule and queue the model's (log
entries 4, 5). -/
def Obligations.ResetValues : Prop :=
  ∀ m : Memory,
    (State.resetWith m).pc = 0x200#16 ∧ (∀ x, (State.resetWith m).v x = 0#8) ∧
    (State.resetWith m).index = 0#16 ∧ (State.resetWith m).sp = 0 ∧
    (∀ j : Fin 16, (State.resetWith m).stack[j.val] = 0#16) ∧
    (State.resetWith m).dt = 0#8 ∧ (State.resetWith m).st = 0#8 ∧
    (∀ k : Fin 16, (State.resetWith m).keys[k.val] = false) ∧
    (∀ cx cy, (State.resetWith m).pixel cx cy = false) ∧
    (∀ a, (State.resetWith m).memRead a = m.read (a % 4096)) ∧
    (State.resetWith m).gaps = [] ∧ (State.resetWith m).randomIn = []

/-- From R231: the first step after reset fetches the bytes at 512 and 513, whatever memory holds. That the
byte at 512 is the high one is decision D2 (log entry 11), the fault's form is D13 (log entry 6), and
that the step is `exec` at the bare reset state rests on the model's empty schedule (log entry 5). -/
def Obligations.FirstFetchAtEntryPoint : Prop :=
  ∀ m : Memory, (State.resetWith m).pc.toNat = 512 ∧
    step (State.resetWith m) = match decode (wordOfBytes (m.read 512) (m.read 513)) with
      | .ok i => exec i (State.resetWith m)
      | .error _ => .fault (.unknownOpcode 512#16 (wordOfBytes (m.read 512) (m.read 513)))

/-! ## Framebuffer -/

/-- R101: CLS turns every pixel off and changes nothing else but the program counter; its step reports
`display_dirty`. The fixed word is the spec's decision D3 (log entry 11). -/
def Obligations.ClearScreen : Prop :=
  decode 0x00E0#16 = .ok .cls ∧
  (∀ s : State, Completes .cls s fun t =>
    (∀ cx cy, t.pixel cx cy = false) ∧ Advanced 2 s t ∧ SameBut [] [.fb] s t) ∧
  ∀ s : State, s.fetchWord = 0x00E0#16 → report s = some ⟨.ok, true⟩

/-- R102, R103, R104, R107 (decisions D8 for the sprite's addresses, D10, D11): DRW turns over exactly
the pixels its sprite's 1 bits lie on, wrapped at both edges, and `VF` becomes 1 exactly when one of
them was on; also when `x` or `y` is 15 and when `n = 0`. It changes nothing else but the program
counter. -/
def Obligations.DrawSprite : Prop :=
  ∀ (x y n : Nibble) (s : State), Completes (.drw x y n) s fun t =>
    (∀ cx cy, t.pixel cx cy = (s.pixel cx cy ^^
      s.spriteBit s.index.toNat (s.v x).toNat (s.v y).toNat n.toNat cx cy)) ∧
    (t.v flagReg = if ∃ cx cy, s.pixel cx cy = true ∧
        s.spriteBit s.index.toNat (s.v x).toNat (s.v y).toNat n.toNat cx cy = true
      then 1#8 else 0#8) ∧
    Advanced 2 s t ∧ SameBut [flagReg] [.fb] s t

/-- R105 (b), derived there from R100, R102, R104 (decisions D8, D10, D11): drawing the same sprite
twice restores the framebuffer, and the second draw sets `VF` to 1 exactly when a 1 bit of the sprite
lies on a pixel that was off before the first. -/
def Obligations.DrawTwiceRestores : Prop :=
  ∀ (x y n : Nibble) (s : State), x ≠ flagReg → y ≠ flagReg →
    ∃ t u, exec (.drw x y n) s = .next t ∧ exec (.drw x y n) t = .next u ∧
      u.fb = s.fb ∧
      (u.v flagReg = if ∃ cx cy, s.pixel cx cy = false ∧
          s.spriteBit s.index.toNat (s.v x).toNat (s.v y).toNat n.toNat cx cy = true
        then 1#8 else 0#8)

/-- R106 (decision D1; D3 for the word of CLS, D13 for the result, log entry 11), with R200: a step
reports `display_dirty` exactly when it completed and executed CLS or DRW, whether or not a pixel
changed. -/
def Obligations.DisplayDirtyReport : Prop :=
  ∀ (s : State) (r : StepReport), report s = some r →
    (r.displayDirty = true ↔
      r.result = .ok ∧ ∃ i, decode s.fetchWord = .ok i ∧ (i = .cls ∨ ∃ x y n, i = .drw x y n))

/-! ## Control transfer -/

/-- R163: a word of family 0x1 jumps to its low twelve bits, and nothing else changes. -/
def Obligations.JumpGoesToAddress : Prop :=
  (∀ w : Word, w &&& 0xF000#16 = 0x1000#16 → decode w = .ok (.jp (nnnField w))) ∧
  ∀ (nnn : Addr) (s : State), Completes (.jp nnn) s fun t =>
    t.pc.toNat = nnn.toNat ∧ SameBut [] [] s t

/-- R164 (decision D12): with a free entry CALL pushes its own address and jumps, and the other entries
stay; with 16 in use it raises `CallStackOverflow` with its address and word. -/
def Obligations.CallPushesItsAddress : Prop :=
  ∀ (nnn : Addr) (s : State),
    (s.sp.val < 16 → Completes (.call nnn) s fun t =>
      t.pc.toNat = nnn.toNat ∧ t.sp.val = s.sp.val + 1 ∧
      (∀ j : Fin 16, t.stack[j.val] = if j.val = s.sp.val then s.pc else s.stack[j.val]) ∧
      SameBut [] [.stack] s t) ∧
    (s.sp.val = 16 → exec (.call nnn) s = .fault (.callStackOverflow s.pc (encode (.call nnn))))

/-- R162 (decision D12): with an entry in use RET goes to the popped address plus 2, mod 4096, and the
stack entries themselves stay. -/
def Obligations.ReturnGoesPastTheCall : Prop :=
  ∀ (s : State) (h : 0 < s.sp.val), Completes .ret s fun t =>
    t.pc.toNat = ((s.stack[s.sp.val - 1]'(by omega)).toNat + 2) % 4096 ∧
    t.sp.val = s.sp.val - 1 ∧ t.stack = s.stack ∧ SameBut [] [.stack] s t

/-- From R203: RET on an empty stack raises `CallStackUnderflow`, and only then; a step that executes it
reports the address and the word 0x00EE. What a fault reports is decision D13 (log entry 6), the word
is decision D3 (log entry 11). -/
def Obligations.ReturnOnEmptyStackFaults : Prop :=
  ∀ s : State,
    (s.sp.val = 0 ↔ exec .ret s = .fault (.callStackUnderflow s.pc 0x00EE#16)) ∧
    (s.fetchWord = 0x00EE#16 → s.sp.val = 0 → step s = .fault (.callStackUnderflow s.pc 0x00EE#16))

/-- R162 with R164 (90_conflicts.md C6, decision D12): a call from address A followed by a return comes
back to A + 2 with the stack as deep as before, its valid entries unchanged, and nothing else changed.
-/
def Obligations.CallThenReturn : Prop :=
  ∀ (nnn : Addr) (s : State), s.sp.val < 16 →
    ∃ t u, exec (.call nnn) s = .next t ∧ exec .ret t = .next u ∧
      Advanced 2 s u ∧ u.sp = s.sp ∧
      (∀ j : Fin 16, j.val < s.sp.val → u.stack[j.val] = s.stack[j.val]) ∧ SameBut [] [.stack] s u

/-- R169 (decision D9): JP V0 goes to `nnn + V[0]` mod 4096, whatever the other registers hold, and
nothing else changes. -/
def Obligations.ComputedJump : Prop :=
  (∀ w : Word, w &&& 0xF000#16 = 0xB000#16 → decode w = .ok (.jpV0 (nnnField w))) ∧
  ∀ (nnn : Addr) (s : State), Completes (.jpV0 nnn) s fun t =>
    t.pc.toNat = (nnn.toNat + (s.v 0#4).toNat) % 4096 ∧ SameBut [] [] s t

/-- R165, R166 (decision D4): SE and SNE with an immediate advance by 4 or 2, and nothing else
changes. -/
def Obligations.ImmediateSkips : Prop :=
  ∀ (x : Nibble) (kk : Byte) (s : State),
    (Completes (.seImm x kk) s fun t =>
      Advanced (if s.v x = kk then 4 else 2) s t ∧ SameBut [] [] s t) ∧
    (Completes (.sneImm x kk) s fun t =>
      Advanced (if s.v x = kk then 2 else 4) s t ∧ SameBut [] [] s t)

/-- R167, R168 (decisions D4, D5): SE and SNE of two registers, whatever the low nibble of the word;
`x = y` always skips in SE and never in SNE. -/
def Obligations.RegisterSkips : Prop :=
  (∀ w : Word, w &&& 0xF000#16 = 0x5000#16 → decode w = .ok (.seReg (xField w) (yField w))) ∧
  (∀ w : Word, w &&& 0xF000#16 = 0x9000#16 → decode w = .ok (.sneReg (xField w) (yField w))) ∧
  ∀ (x y : Nibble) (s : State),
    (Completes (.seReg x y) s fun t =>
      Advanced (if x = y ∨ s.v x = s.v y then 4 else 2) s t ∧ SameBut [] [] s t) ∧
    (Completes (.sneReg x y) s fun t =>
      Advanced (if x = y ∨ s.v x = s.v y then 2 else 4) s t ∧ SameBut [] [] s t)

/-- R170, R171 (decisions D6, D7): SKP and SKNP test the key numbered by the low four bits of `V[x]`, and
nothing else changes. -/
def Obligations.KeySkips : Prop :=
  ∀ (x : Nibble) (s : State),
    (Completes (.skp x) s fun t =>
      Advanced (if s.keys[(s.v x).toNat % 16] = true then 4 else 2) s t ∧ SameBut [] [] s t) ∧
    (Completes (.sknp x) s fun t =>
      Advanced (if s.keys[(s.v x).toNat % 16] = true then 2 else 4) s t ∧ SameBut [] [] s t)

/-! ## Immediates, index, random -/

/-- R190: LD Vx, kk, every register alike. -/
def Obligations.LoadImmediate : Prop :=
  (∀ w : Word, w &&& 0xF000#16 = 0x6000#16 → decode w = .ok (.ldImm (xField w) (kkField w))) ∧
  ∀ (x : Nibble) (kk : Byte) (s : State), Completes (.ldImm x kk) s fun t =>
    t.v x = kk ∧ Advanced 2 s t ∧ SameBut [x] [] s t

/-- R191: ADD Vx, kk wraps mod 256 and writes no flag. -/
def Obligations.AddImmediateWithoutFlag : Prop :=
  (∀ w : Word, w &&& 0xF000#16 = 0x7000#16 → decode w = .ok (.addImm (xField w) (kkField w))) ∧
  ∀ (x : Nibble) (kk : Byte) (s : State), Completes (.addImm x kk) s fun t =>
    (t.v x).toNat = ((s.v x).toNat + kk.toNat) % 256 ∧ Advanced 2 s t ∧ SameBut [x] [] s t

/-- R192: LD I, nnn; bits 15 to 12 of `I` become 0. -/
def Obligations.LoadIndex : Prop :=
  (∀ w : Word, w &&& 0xF000#16 = 0xA000#16 → decode w = .ok (.ldI (nnnField w))) ∧
  ∀ (nnn : Addr) (s : State), Completes (.ldI nnn) s fun t =>
    t.index.toNat = nnn.toNat ∧ Advanced 2 s t ∧ SameBut [] [.index] s t

/-- R193 (decision D17): RND writes the sampled byte AND kk and consumes exactly one byte: the oldest
queued one, or, with none queued, the free stream's next (log entry 4; the statement holds for every
stream). -/
def Obligations.RandomByteAndMask : Prop :=
  ∀ (x : Nibble) (kk : Byte) (s : State),
    (∀ b rest, s.randomIn = b :: rest → Completes (.rnd x kk) s fun t =>
      t.v x = b &&& kk ∧ t.randomIn = rest ∧ t.randomCount = s.randomCount + 1 ∧
      Advanced 2 s t ∧ SameBut [x] [.random] s t) ∧
    (s.randomIn = [] → Completes (.rnd x kk) s fun t =>
      t.v x = Config.randomByte s.randomCount &&& kk ∧ t.randomIn = [] ∧
      t.randomCount = s.randomCount + 1 ∧ Advanced 2 s t ∧ SameBut [x] [.random] s t)

/-! ## Arithmetic, logic, shifts -/

/-- R121, R122, R123, R124: the register move and the bitwise operations, bit by bit, with `VF`
unchanged unless it is the destination. -/
def Obligations.MoveAndLogic : Prop :=
  ∀ (x y : Nibble) (s : State),
    (Completes (.ldReg x y) s fun t => t.v x = s.v y ∧ Advanced 2 s t ∧ SameBut [x] [] s t) ∧
    (Completes (.orReg x y) s fun t =>
      (∀ k : Fin 8, (t.v x)[k.val] = ((s.v x)[k.val] || (s.v y)[k.val])) ∧
      Advanced 2 s t ∧ SameBut [x] [] s t) ∧
    (Completes (.andReg x y) s fun t =>
      (∀ k : Fin 8, (t.v x)[k.val] = ((s.v x)[k.val] && (s.v y)[k.val])) ∧
      Advanced 2 s t ∧ SameBut [x] [] s t) ∧
    (Completes (.xorReg x y) s fun t =>
      (∀ k : Fin 8, (t.v x)[k.val] = ((s.v x)[k.val] ^^ (s.v y)[k.val])) ∧
      Advanced 2 s t ∧ SameBut [x] [] s t)

/-- R125: ADD Vx, Vy gives the sum mod 256 and the carry in `VF`; with `x = 15` the flag is what
remains, which is decision D11, the flag written last (log entry 11). -/
def Obligations.AddWithCarry : Prop :=
  ∀ (x y : Nibble) (s : State), Completes (.addReg x y) s fun t =>
    (x ≠ flagReg → (t.v x).toNat = ((s.v x).toNat + (s.v y).toNat) % 256) ∧
    (t.v flagReg = if (s.v x).toNat + (s.v y).toNat > 255 then 1#8 else 0#8) ∧
    Advanced 2 s t ∧ SameBut [x, flagReg] [] s t

/-- R126, R128: SUB and SUBN give the difference mod 256 and in `VF` whether the minuend is strictly
greater. That equal operands give `VF = 0` is the spec's resolution C1, and that with `x = 15` the
flag is what remains its decision D11 (log entry 11). -/
def Obligations.SubtractWithStrictFlag : Prop :=
  ∀ (x y : Nibble) (s : State),
    (Completes (.sub x y) s fun t =>
      (x ≠ flagReg → (t.v x).toNat = ((s.v x).toNat + 256 - (s.v y).toNat) % 256) ∧
      (t.v flagReg = if (s.v x).toNat > (s.v y).toNat then 1#8 else 0#8) ∧
      Advanced 2 s t ∧ SameBut [x, flagReg] [] s t) ∧
    (Completes (.subn x y) s fun t =>
      (x ≠ flagReg → (t.v x).toNat = ((s.v y).toNat + 256 - (s.v x).toNat) % 256) ∧
      (t.v flagReg = if (s.v y).toNat > (s.v x).toNat then 1#8 else 0#8) ∧
      Advanced 2 s t ∧ SameBut [x, flagReg] [] s t)

/-- R127: SHR halves `V[x]`, a zero shifted in, and puts the bit shifted out into `VF`, whatever the `y`
field of the word (decision D5); with `x = 15` the flag is what remains (decision D11, log entry
11). -/
def Obligations.ShiftRight : Prop :=
  (∀ w : Word, w &&& 0xF00F#16 = 0x8006#16 → decode w = .ok (.shr (xField w))) ∧
  ∀ (x : Nibble) (s : State), Completes (.shr x) s fun t =>
    (x ≠ flagReg → (t.v x).toNat = (s.v x).toNat / 2) ∧
    (t.v flagReg).toNat = (s.v x).toNat % 2 ∧
    Advanced 2 s t ∧ SameBut [x, flagReg] [] s t

/-- R129 (decision D20): SHL doubles `V[x]` mod 256 and puts the bit shifted out, as 0 or 1, into `VF`,
whatever the `y` field of the word (decision D5); with `x = 15` the flag is what remains (decision
D11, log entry 11). -/
def Obligations.ShiftLeft : Prop :=
  (∀ w : Word, w &&& 0xF00F#16 = 0x800E#16 → decode w = .ok (.shl (xField w))) ∧
  ∀ (x : Nibble) (s : State), Completes (.shl x) s fun t =>
    (x ≠ flagReg → (t.v x).toNat = 2 * (s.v x).toNat % 256) ∧
    (t.v flagReg).toNat = (s.v x).toNat / 128 ∧
    Advanced 2 s t ∧ SameBut [x, flagReg] [] s t

/-- R23, R103 (decisions D11, D20): what `VF` holds after every instruction: the six of R23's table
define it (DRW: 1 exactly when a pixel went from on to off), an instruction that writes `V[x]` may
change it only with `x = 15`, and every other leaves it. -/
def Obligations.FlagRegisterWriters : Prop :=
  ∀ (i : Instr) (s t : State), exec i s = .next t →
    match i with
    | .addReg x y => t.v flagReg = if (s.v x).toNat + (s.v y).toNat > 255 then 1#8 else 0#8
    | .sub x y => t.v flagReg = if (s.v x).toNat > (s.v y).toNat then 1#8 else 0#8
    | .subn x y => t.v flagReg = if (s.v y).toNat > (s.v x).toNat then 1#8 else 0#8
    | .shr x => t.v flagReg = if (s.v x)[0] then 1#8 else 0#8
    | .shl x => t.v flagReg = if (s.v x)[7] then 1#8 else 0#8
    | .drw _ _ _ => t.v flagReg =
        if ∃ cx cy, s.pixel cx cy = true ∧ t.pixel cx cy = false then 1#8 else 0#8
    | .ldImm x _ | .addImm x _ | .ldReg x _ | .orReg x _ | .andReg x _ | .xorReg x _ | .rnd x _
    | .ldFromDt x | .ldKey x | .load x => x ≠ flagReg → t.v flagReg = s.v flagReg
    | _ => t.v flagReg = s.v flagReg

/-! ## Miscellaneous -/

/-- R141, R143, R144: the timer instructions move a byte and change nothing else. That a timer is a byte,
so that it moves whole, is decision D16 (log entry 11). -/
def Obligations.TimerMoves : Prop :=
  ∀ (x : Nibble) (s : State),
    (Completes (.ldFromDt x) s fun t => t.v x = s.dt ∧ Advanced 2 s t ∧ SameBut [x] [] s t) ∧
    (Completes (.ldToDt x) s fun t => t.dt = s.v x ∧ Advanced 2 s t ∧ SameBut [] [.dt] s t) ∧
    (Completes (.ldToSt x) s fun t => t.st = s.v x ∧ Advanced 2 s t ∧ SameBut [] [.st] s t)

/-- R142 (decision D15): with no key pressed Fx0A changes nothing, `PC` included, and its step reports
`AwaitingInput`; otherwise `V[x]` gets the smallest pressed key's number. -/
def Obligations.KeyWait : Prop :=
  (∀ (x : Nibble) (s : State), (∀ k : Fin 16, s.keys[k.val] = false) →
    exec (.ldKey x) s = .next s) ∧
  (∀ (x : Nibble) (s : State) (k : Fin 16), s.keys[k.val] = true →
    (∀ j : Fin 16, j < k → s.keys[j.val] = false) →
    Completes (.ldKey x) s fun t =>
      (t.v x).toNat = k.val ∧ Advanced 2 s t ∧ SameBut [x] [] s t) ∧
  ∀ (x : Nibble) (s : State), decode s.fetchWord = .ok (.ldKey x) →
    (report s = some ⟨.awaitingInput, false⟩ ↔ ∀ k : Fin 16, s.beginStep.keys[k.val] = false)

/-- R145, R146: ADD I wraps mod 65536 and writes no flag; LD F multiplies the unmasked `V[x]` by 5. -/
def Obligations.IndexArithmetic : Prop :=
  ∀ (x : Nibble) (s : State),
    (Completes (.addI x) s fun t =>
      t.index.toNat = (s.index.toNat + (s.v x).toNat) % 65536 ∧
      Advanced 2 s t ∧ SameBut [] [.index] s t) ∧
    (Completes (.ldFont x) s fun t =>
      t.index.toNat = 5 * (s.v x).toNat ∧ Advanced 2 s t ∧ SameBut [] [.index] s t)

/-- R147 (decision D8 for the addresses mod 4096, log entry 11): BCD stores the hundreds, tens and
units digit at `I`, `I + 1`, `I + 2` mod 4096, every other byte of memory reads as before, and nothing
else changes. -/
def Obligations.DecimalDigitsStored : Prop :=
  ∀ (x : Nibble) (s : State), Completes (.bcd x) s fun t =>
    (t.memRead s.index.toNat).toNat = (s.v x).toNat / 100 ∧
    (t.memRead (s.index.toNat + 1)).toNat = (s.v x).toNat / 10 % 10 ∧
    (t.memRead (s.index.toNat + 2)).toNat = (s.v x).toNat % 10 ∧
    (∀ a, (∀ k < 3, a % 4096 ≠ (s.index.toNat + k) % 4096) → t.memRead a = s.memRead a) ∧
    Advanced 2 s t ∧ SameBut [] [.mem] s t

/-- R148 (decisions D8, D19): STORE writes `V[0]` to `V[x]` inclusive at `I` upward mod 4096; every
other byte, `I` and the registers stay. -/
def Obligations.RegistersStored : Prop :=
  ∀ (x : Nibble) (s : State), Completes (.store x) s fun t =>
    (∀ k : Nibble, k.toNat ≤ x.toNat → t.memRead (s.index.toNat + k.toNat) = s.v k) ∧
    (∀ a, (∀ k ≤ x.toNat, a % 4096 ≠ (s.index.toNat + k) % 4096) → t.memRead a = s.memRead a) ∧
    Advanced 2 s t ∧ SameBut [] [.mem] s t

/-- R149 (decisions D8, D19): LOAD reads `V[0]` to `V[x]` inclusive from `I` upward mod 4096; the
registers above `x`, `I` and memory stay. -/
def Obligations.RegistersLoaded : Prop :=
  ∀ (x : Nibble) (s : State), Completes (.load x) s fun t =>
    (∀ k : Nibble, t.v k =
      if k.toNat ≤ x.toNat then s.memRead (s.index.toNat + k.toNat) else s.v k) ∧
    Advanced 2 s t ∧ SameBut (writesRegs (.load x)) [] s t

/-- R148 with R149 (decisions D8, D19): storing registers and loading them back changes no register. -/
def Obligations.StoreThenLoadRestores : Prop :=
  ∀ (x : Nibble) (s : State),
    ∃ t u, exec (.store x) s = .next t ∧ exec (.load x) t = .next u ∧
      SameBut [] [.mem] s u ∧ ∀ a, u.memRead a = t.memRead a

/-- R61 (derived there from R58 and R160; decisions D2, D8, D9): a program may overwrite its very next
instruction, and the next step fetches the new bytes: with `I` at the next instruction, Fx55 with `x`
at least 1 makes it the word `V[0]`, `V[1]`, and Fx33 the word of the hundreds and tens digits. -/
def Obligations.StoredWordIsFetchedNext : Prop :=
  ∀ (x : Nibble) (s : State), s.index.toNat = (s.pc.toNat + 2) % 4096 →
    (1 ≤ x.toNat → Completes (.store x) s fun t =>
      t.fetchWord.toNat = (s.v 0#4).toNat * 256 + (s.v 1#4).toNat) ∧
    Completes (.bcd x) s fun t =>
      t.fetchWord.toNat = (s.v x).toNat / 100 * 256 + (s.v x).toNat / 10 % 10

/-! ## Rules about the whole machine -/

/-- R38 (derived there from the instruction rules): the registers and the parts of the state each
instruction leaves unchanged. Only those of `writesRegs` and `writesParts` may change; the keys never
do (R31). Memory and the call stack count as one part each here: which bytes BCD and STORE leave is in
`MemoryWriters`, which stack entries CALL and RET leave in `CallPushesItsAddress` and
`ReturnGoesPastTheCall`. -/
def Obligations.InstructionFrames : Prop :=
  ∀ (i : Instr) (s t : State), exec i s = .next t → SameBut (writesRegs i) (writesParts i) s t

/-- R64 (derived there; decision D8): the only bytes an instruction stores are BCD's three and STORE's
`x + 1` from `I`, mod 4096; every other byte reads as before. -/
def Obligations.MemoryWriters : Prop :=
  ∀ (i : Instr) (s t : State), exec i s = .next t →
    ∀ a, (∀ k < storesBytes i, a % 4096 ≠ (s.index.toNat + k) % 4096) → t.memRead a = s.memRead a

/-- R29 (decision D16): no instruction reads `ST`: from states that differ only in it, every instruction
answers alike, but for `ST` itself. -/
def Obligations.SoundTimerHasNoEffect : Prop :=
  ∀ (i : Instr) (s : State) (b : Byte),
    Answer.mapNext (State.setSt · 0#8) (exec i (s.setSt b)) =
      Answer.mapNext (State.setSt · 0#8) (exec i s)

/-- R27 (decisions D12, D24): no program can observe a stack entry at `SP` or above: steps from states
that differ only in such entries answer alike, but for such entries. -/
def Obligations.StaleStackUnobservable : Prop :=
  ∀ s s' : State, s.dropStale = s'.dropStale →
    Answer.mapNext State.dropStale (step s) = Answer.mapNext State.dropStale (step s')

/-- The canonical form makes memory extensional (the model's own, log entry 1): two canonical memories
that read alike everywhere are equal. -/
def Obligations.CanonicalMemoriesEqual : Prop :=
  ∀ m m' : Memory, m.wf → m'.wf → (∀ a < 4096, m.read a = m'.read a) → m = m'

/-! ## Environment and outputs -/

/-- R30 (decision D16): `n` ticks lower each timer by `n`, toward zero, and change nothing else. -/
def Obligations.TicksLowerTimers : Prop :=
  ∀ (n : Nat) (s : State),
    (s.ticks n).dt.toNat = s.dt.toNat - n ∧ (s.ticks n).st.toNat = s.st.toNat - n ∧
    (s.ticks n).pc = s.pc ∧ SameBut [] [.dt, .st] s (s.ticks n)

/-- R217: byte `j` of a program image goes to cell `512 + j`, and nothing else changes; an image longer
than 3584 bytes does not fit (what the loader does then is outside the spec: the model gives none, log
entry 12). R232 (b), R56: byte `j` of the font table goes to cell `j`, and nothing else changes; the
clause is for a table inside the reserved 512 bytes, since the spec gives no length and that a longer
one is written too is the model's choice (log entry 14). -/
def Obligations.ImageLoadedAtEntryPoint : Prop :=
  ∀ (image : List Byte) (s : State),
    (image.length ≤ 3584 → ∃ t, s.loadImage image = some t ∧
      (∀ j (h : j < image.length), t.mem.read (512 + j) = image[j]) ∧
      (∀ a, a < 512 ∨ 512 + image.length ≤ a → t.mem.read a = s.mem.read a) ∧
      t.pc = s.pc ∧ SameBut [] [.mem] s t) ∧
    (3584 < image.length → s.loadImage image = none) ∧
    ∀ glyphs : List Byte, glyphs.length ≤ 512 →
      (∀ j (h : j < glyphs.length), (s.loadGlyphs glyphs).mem.read j = glyphs[j]) ∧
      (∀ a, glyphs.length ≤ a → (s.loadGlyphs glyphs).mem.read a = s.mem.read a) ∧
      (s.loadGlyphs glyphs).pc = s.pc ∧ SameBut [] [.mem] s (s.loadGlyphs glyphs)

/-- R200 (decision D13; D15 for when Fx0A waits, log entry 11): every step has a result, `Fault`
exactly when it ends in that fault, `AwaitingInput` exactly when it executes Fx0A with no key pressed,
and then the state is only that after the gap before the step; otherwise `Ok`. -/
def Obligations.StepResultReport : Prop :=
  ∀ s : State, ∃ r, report s = some r ∧
    (∀ f, r.result = .fault f ↔ step s = .fault f) ∧
    (r.result = .awaitingInput ↔ (∃ x, decode s.fetchWord = .ok (.ldKey x)) ∧
      ∀ k : Fin 16, s.beginStep.keys[k.val] = false) ∧
    (r.result = .awaitingInput → step s = .next s.beginStep)

/-- R243 (a) (decision D26): a program whose next word is a jump to its own address has stopped: after any
number of steps, under any schedule, every later state has the same registers, program counter,
memory, stack, framebuffer and index, and timers no higher. -/
def Obligations.StoppedProgramStays : Prop :=
  ∀ (s : State) (k : Nat), s.Stopped →
    ∃ t, Host.Core.run Sys2Proof.core k s = .next t ∧ t.Stopped ∧
      t = { s with dt := t.dt, st := t.st, keys := t.keys, gaps := t.gaps } ∧
      t.dt.toNat ≤ s.dt.toNat ∧ t.st.toNat ≤ s.st.toNat

/-- R142 with R243 (c) (decision D15; that the schedule stands in State is the model's choice, log
entry 5): a wait ends when a key is pressed: if the word at `PC` is Fx0A and the schedule presses a key
in the gap before some later step, and none before, the waiting steps change nothing but timers and
keys and the step after that gap completes the instruction. -/
def Obligations.KeyWaitEndsWithAPress : Prop :=
  ∀ (x : Nibble) (s : State) (waits : List Gap) (g : Gap) (k : Fin 16),
    decode s.fetchWord = .ok (.ldKey x) → s.gaps = waits ++ [g] →
    (∀ h ∈ waits, ∀ j : Fin 16, h.keys[j.val] = false) →
    g.keys[k.val] = true → (∀ j : Fin 16, j < k → g.keys[j.val] = false) →
    ∃ t, Host.Core.run Sys2Proof.core (waits.length + 1) s = .next t ∧
      (t.v x).toNat = k.val ∧ Advanced 2 s t ∧
      (∀ j, j ≠ x → t.v j = s.v j) ∧ (∀ a, t.memRead a = s.memRead a) ∧
      t.index = s.index ∧ t.sp = s.sp ∧ t.stack = s.stack ∧ t.fb = s.fb ∧ t.keys = g.keys
end

