-- ==== Sys2Proof/Laws/Decode.lean ====
section
/-! SUPPORT. The fields of an encoded word, a word rebuilt from its four nibbles, and what masking a
word with an opcode map's mask says about its fields. -/

namespace Sys2Proof

theorem toNat_append_eq {m n : Nat} (x : BitVec m) (y : BitVec n) :
    (x ++ y).toNat = x.toNat * 2 ^ n + y.toNat := by
  rw [BitVec.toNat_append, ← Nat.shiftLeft_add_eq_or_of_lt y.isLt, Nat.shiftLeft_eq]

/-! ## Fields and words as numbers -/

theorem toNat_opField (w : Word) : (opField w).toNat = w.toNat / 4096 := by
  have := w.isLt
  simp only [opField, BitVec.extractLsb'_toNat, Nat.shiftRight_eq_div_pow]
  omega

theorem toNat_xField (w : Word) : (xField w).toNat = w.toNat / 256 % 16 := by
  simp only [xField, BitVec.extractLsb'_toNat, Nat.shiftRight_eq_div_pow]

theorem toNat_yField (w : Word) : (yField w).toNat = w.toNat / 16 % 16 := by
  simp only [yField, BitVec.extractLsb'_toNat, Nat.shiftRight_eq_div_pow]

theorem toNat_nField (w : Word) : (nField w).toNat = w.toNat % 16 := by
  simp only [nField, BitVec.extractLsb'_toNat, Nat.shiftRight_eq_div_pow]
  omega

theorem toNat_kkField (w : Word) : (kkField w).toNat = w.toNat % 256 := by
  simp only [kkField, BitVec.extractLsb'_toNat, Nat.shiftRight_eq_div_pow]
  omega

theorem toNat_nnnField (w : Word) : (nnnField w).toNat = w.toNat % 4096 := by
  simp only [nnnField, BitVec.extractLsb'_toNat, Nat.shiftRight_eq_div_pow]
  omega

theorem toNat_encNnn (op : Nibble) (nnn : Addr) :
    (encNnn op nnn).toNat = op.toNat * 4096 + nnn.toNat :=
  toNat_append_eq op nnn

theorem toNat_encXkk (op x : Nibble) (kk : Byte) :
    (encXkk op x kk).toNat = op.toNat * 4096 + x.toNat * 256 + kk.toNat := by
  have h := toNat_append_eq (op ++ x) kk
  rw [toNat_append_eq op x] at h
  exact h.trans (by omega)

theorem toNat_encXyn (op x y n : Nibble) :
    (encXyn op x y n).toNat = op.toNat * 4096 + x.toNat * 256 + y.toNat * 16 + n.toNat := by
  have h := toNat_append_eq (op ++ x ++ y) n
  rw [toNat_append_eq (op ++ x) y, toNat_append_eq op x] at h
  exact h.trans (by omega)

/-! ## The fields of an encoded word -/

@[simp] theorem opField_encNnn (op : Nibble) (nnn : Addr) : opField (encNnn op nnn) = op :=
  BitVec.eq_of_toNat_eq (by rw [toNat_opField, toNat_encNnn]; omega)

@[simp] theorem nnnField_encNnn (op : Nibble) (nnn : Addr) : nnnField (encNnn op nnn) = nnn :=
  BitVec.eq_of_toNat_eq (by rw [toNat_nnnField, toNat_encNnn]; omega)

@[simp] theorem opField_encXkk (op x : Nibble) (kk : Byte) : opField (encXkk op x kk) = op :=
  BitVec.eq_of_toNat_eq (by rw [toNat_opField, toNat_encXkk]; omega)

@[simp] theorem xField_encXkk (op x : Nibble) (kk : Byte) : xField (encXkk op x kk) = x :=
  BitVec.eq_of_toNat_eq (by rw [toNat_xField, toNat_encXkk]; omega)

@[simp] theorem kkField_encXkk (op x : Nibble) (kk : Byte) : kkField (encXkk op x kk) = kk :=
  BitVec.eq_of_toNat_eq (by rw [toNat_kkField, toNat_encXkk]; omega)

@[simp] theorem opField_encXyn (op x y n : Nibble) : opField (encXyn op x y n) = op :=
  BitVec.eq_of_toNat_eq (by rw [toNat_opField, toNat_encXyn]; omega)

@[simp] theorem xField_encXyn (op x y n : Nibble) : xField (encXyn op x y n) = x :=
  BitVec.eq_of_toNat_eq (by rw [toNat_xField, toNat_encXyn]; omega)

@[simp] theorem yField_encXyn (op x y n : Nibble) : yField (encXyn op x y n) = y :=
  BitVec.eq_of_toNat_eq (by rw [toNat_yField, toNat_encXyn]; omega)

@[simp] theorem nField_encXyn (op x y n : Nibble) : nField (encXyn op x y n) = n :=
  BitVec.eq_of_toNat_eq (by rw [toNat_nField, toNat_encXyn]; omega)

/-! ## A word rebuilt from its fields -/

/-- A word is its four nibbles. -/
theorem encXyn_fields (w : Word) : encXyn (opField w) (xField w) (yField w) (nField w) = w :=
  BitVec.eq_of_toNat_eq (by
    rw [toNat_encXyn, toNat_opField, toNat_xField, toNat_yField, toNat_nField]
    omega)

/-- A word is its family, its second nibble and its low byte. -/
theorem encXkk_fields (w : Word) : encXkk (opField w) (xField w) (kkField w) = w :=
  BitVec.eq_of_toNat_eq (by
    rw [toNat_encXkk, toNat_opField, toNat_xField, toNat_kkField]
    omega)

/-- A word is its family and its low twelve bits. -/
theorem encNnn_fields (w : Word) : encNnn (opField w) (nnnField w) = w :=
  BitVec.eq_of_toNat_eq (by
    rw [toNat_encNnn, toNat_opField, toNat_nnnField]
    omega)

theorem encXyn_inj {a b c d a' b' c' d' : Nibble} (h : encXyn a b c d = encXyn a' b' c' d') :
    a = a' ∧ b = b' ∧ c = c' ∧ d = d' := by
  refine ⟨?_, ?_, ?_, ?_⟩
  · simpa using congrArg opField h
  · simpa using congrArg xField h
  · simpa using congrArg yField h
  · simpa using congrArg nField h

/-! ## Masks -/

/-- Masking goes nibble by nibble. -/
theorem encXyn_and (a b c d a' b' c' d' : Nibble) :
    encXyn a b c d &&& encXyn a' b' c' d' = encXyn (a &&& a') (b &&& b') (c &&& c') (d &&& d') := by
  unfold encXyn
  rw [← BitVec.and_append, ← BitVec.and_append, ← BitVec.and_append]

/-- Any mask, nibble by nibble. -/
theorem and_encXyn (w : Word) (a b c d : Nibble) :
    w &&& encXyn a b c d =
      encXyn (opField w &&& a) (xField w &&& b) (yField w &&& c) (nField w &&& d) := by
  conv_lhs => rw [← encXyn_fields w]
  exact encXyn_and _ _ _ _ _ _ _ _

/-- Mask 0xF000 selects on the family. -/
theorem and_familyMask (w v : Word) (k : Nibble) (hv : v = encXyn k 0#4 0#4 0#4) :
    w &&& 0xF000#16 = v ↔ opField w = k := by
  rw [hv, show 0xF000#16 = encXyn 0xF#4 0#4 0#4 0#4 from rfl, and_encXyn]
  simp only [show ∀ v : Nibble, v &&& 0xF#4 = v by decide, BitVec.and_zero]
  exact ⟨fun h => (encXyn_inj h).1, fun h => by rw [h]⟩

/-- Mask 0xF00F selects on the family and the low nibble. -/
theorem and_nibbleKeyMask (w v : Word) (k key : Nibble) (hv : v = encXyn k 0#4 0#4 key) :
    w &&& 0xF00F#16 = v ↔ opField w = k ∧ nField w = key := by
  rw [hv, show 0xF00F#16 = encXyn 0xF#4 0#4 0#4 0xF#4 from rfl, and_encXyn]
  simp only [show ∀ v : Nibble, v &&& 0xF#4 = v by decide, BitVec.and_zero]
  exact ⟨fun h => ⟨(encXyn_inj h).1, (encXyn_inj h).2.2.2⟩, fun h => by rw [h.1, h.2]⟩

/-- The low byte is the two low nibbles. -/
theorem kkField_eq_append (w : Word) : kkField w = yField w ++ nField w :=
  BitVec.eq_of_toNat_eq (by
    rw [toNat_append_eq (yField w) (nField w), toNat_kkField, toNat_yField, toNat_nField]
    omega)

/-- Mask 0xF0FF selects on the family and the low byte. -/
theorem and_byteKeyMask (w v : Word) (k : Nibble) (key : Byte) (hv : v = encXkk k 0#4 key) :
    w &&& 0xF0FF#16 = v ↔ opField w = k ∧ kkField w = key := by
  have hsplit : v = encXyn k 0#4 (yField v) (nField v) := by
    conv_lhs => rw [← encXyn_fields v]
    rw [hv, opField_encXkk, xField_encXkk]
  have hkey : key = yField v ++ nField v := by
    rw [← kkField_eq_append, hv, kkField_encXkk]
  rw [hkey, hsplit, show 0xF0FF#16 = encXyn 0xF#4 0#4 0xF#4 0xF#4 from rfl, and_encXyn,
    kkField_eq_append w]
  simp only [show ∀ v : Nibble, v &&& 0xF#4 = v by decide, BitVec.and_zero, yField_encXyn,
    nField_encXyn]
  constructor
  · intro h
    obtain ⟨h1, -, h2, h3⟩ := encXyn_inj h
    exact ⟨h1, by rw [h2, h3]⟩
  · rintro ⟨h1, h2⟩
    rw [← kkField_eq_append] at h2
    have hy := toNat_yField w
    have hn := toNat_nField w
    have hk := toNat_kkField w
    have happ := toNat_append_eq (yField v) (nField v)
    rw [h2] at hk
    have e1 : yField w = yField v := BitVec.eq_of_toNat_eq (by omega)
    have e2 : nField w = nField v := BitVec.eq_of_toNat_eq (by omega)
    rw [h1, e1, e2]

/-- Mask 0xFFFF keeps the word. -/
theorem and_fullMask (w : Word) : w &&& 0xFFFF#16 = w := BitVec.and_allOnes

/-! ## Don't-care bits -/

/-- Outside families 0x5, 0x8 and 0x9 every bit is read. -/
theorem and_careMask_of_family (w : Word) (h5 : opField w ≠ 0x5#4) (h8 : opField w ≠ 0x8#4)
    (h9 : opField w ≠ 0x9#4) : w &&& careMask w = w := by
  have c5 := and_familyMask w 0x5000#16 0x5#4 rfl
  have c9 := and_familyMask w 0x9000#16 0x9#4 rfl
  have c6 := and_nibbleKeyMask w 0x8006#16 0x8#4 0x6#4 rfl
  have cE := and_nibbleKeyMask w 0x800E#16 0x8#4 0xE#4 rfl
  unfold careMask
  rw [if_neg (mt c5.mp h5), if_neg (mt c9.mp h9), if_neg (fun h => h8 (c6.mp h).1),
    if_neg (fun h => h8 (cE.mp h).1), and_fullMask]

/-- In family 0x8 every bit is read but for the shifts. -/
theorem and_careMask_of_alu (w : Word) (h8 : opField w = 0x8#4) (h6 : nField w ≠ 0x6#4)
    (hE : nField w ≠ 0xE#4) : w &&& careMask w = w := by
  have c5 := and_familyMask w 0x5000#16 0x5#4 rfl
  have c9 := and_familyMask w 0x9000#16 0x9#4 rfl
  have c6 := and_nibbleKeyMask w 0x8006#16 0x8#4 0x6#4 rfl
  have cE := and_nibbleKeyMask w 0x800E#16 0x8#4 0xE#4 rfl
  rw [h8] at c5 c9
  unfold careMask
  rw [if_neg (mt c5.mp (by decide)), if_neg (mt c9.mp (by decide)), if_neg (fun h => h6 (c6.mp h).2),
    if_neg (fun h => hE (cE.mp h).2), and_fullMask]

end Sys2Proof
end

