-- ==== Sys2Proof/Laws/State.lean ====
section
/-! SUPPORT. One lemma per field per update of State, and per observer that an update leaves alone, each
true by definition, so that no later proof unfolds a record update. A program counter that an update
writes is read as a number (`State.toNat_setPc` and its like in Laws/Ops.lean). -/

namespace Sys2Proof.Machine

variable (s : State)

/-! ### setV -/

@[simp] theorem State.setV_regs (x : Nibble) (b : Byte) : (s.setV x b).regs = s.regs.set x.toNat b x.isLt := rfl
@[simp] theorem State.setV_index (x : Nibble) (b : Byte) : (s.setV x b).index = s.index := rfl
@[simp] theorem State.setV_pc (x : Nibble) (b : Byte) : (s.setV x b).pc = s.pc := rfl
@[simp] theorem State.setV_mem (x : Nibble) (b : Byte) : (s.setV x b).mem = s.mem := rfl
@[simp] theorem State.setV_stack (x : Nibble) (b : Byte) : (s.setV x b).stack = s.stack := rfl
@[simp] theorem State.setV_sp (x : Nibble) (b : Byte) : (s.setV x b).sp = s.sp := rfl
@[simp] theorem State.setV_dt (x : Nibble) (b : Byte) : (s.setV x b).dt = s.dt := rfl
@[simp] theorem State.setV_st (x : Nibble) (b : Byte) : (s.setV x b).st = s.st := rfl
@[simp] theorem State.setV_keys (x : Nibble) (b : Byte) : (s.setV x b).keys = s.keys := rfl
@[simp] theorem State.setV_fb (x : Nibble) (b : Byte) : (s.setV x b).fb = s.fb := rfl
@[simp] theorem State.setV_gaps (x : Nibble) (b : Byte) : (s.setV x b).gaps = s.gaps := rfl
@[simp] theorem State.setV_randomIn (x : Nibble) (b : Byte) : (s.setV x b).randomIn = s.randomIn := rfl
@[simp] theorem State.setV_randomCount (x : Nibble) (b : Byte) : (s.setV x b).randomCount = s.randomCount := rfl
@[simp] theorem State.setV_memRead (x : Nibble) (b : Byte) (m : Nat) : (s.setV x b).memRead m = s.memRead m := rfl
@[simp] theorem State.setV_pixel (x : Nibble) (b : Byte) (cx : Fin 64) (cy : Fin 32) : (s.setV x b).pixel cx cy = s.pixel cx cy := rfl
@[simp] theorem State.setV_keyDown (x : Nibble) (b : Byte) (y : Nibble) : (s.setV x b).keyDown y = s.keyDown y := rfl
@[simp] theorem State.setV_lowestKey (x : Nibble) (b : Byte) : (s.setV x b).lowestKey = s.lowestKey := rfl
@[simp] theorem State.setV_randomSample (x : Nibble) (b : Byte) : (s.setV x b).randomSample = s.randomSample := rfl
@[simp] theorem State.setV_fetchWord (x : Nibble) (b : Byte) : (s.setV x b).fetchWord = s.fetchWord := rfl

/-! ### setFlag -/

@[simp] theorem State.setFlag_regs (c : Bool) : (s.setFlag c).regs = s.regs.set 15 (if c then 1#8 else 0#8) := rfl
@[simp] theorem State.setFlag_index (c : Bool) : (s.setFlag c).index = s.index := rfl
@[simp] theorem State.setFlag_pc (c : Bool) : (s.setFlag c).pc = s.pc := rfl
@[simp] theorem State.setFlag_mem (c : Bool) : (s.setFlag c).mem = s.mem := rfl
@[simp] theorem State.setFlag_stack (c : Bool) : (s.setFlag c).stack = s.stack := rfl
@[simp] theorem State.setFlag_sp (c : Bool) : (s.setFlag c).sp = s.sp := rfl
@[simp] theorem State.setFlag_dt (c : Bool) : (s.setFlag c).dt = s.dt := rfl
@[simp] theorem State.setFlag_st (c : Bool) : (s.setFlag c).st = s.st := rfl
@[simp] theorem State.setFlag_keys (c : Bool) : (s.setFlag c).keys = s.keys := rfl
@[simp] theorem State.setFlag_fb (c : Bool) : (s.setFlag c).fb = s.fb := rfl
@[simp] theorem State.setFlag_gaps (c : Bool) : (s.setFlag c).gaps = s.gaps := rfl
@[simp] theorem State.setFlag_randomIn (c : Bool) : (s.setFlag c).randomIn = s.randomIn := rfl
@[simp] theorem State.setFlag_randomCount (c : Bool) : (s.setFlag c).randomCount = s.randomCount := rfl
@[simp] theorem State.setFlag_memRead (c : Bool) (m : Nat) : (s.setFlag c).memRead m = s.memRead m := rfl
@[simp] theorem State.setFlag_pixel (c : Bool) (cx : Fin 64) (cy : Fin 32) : (s.setFlag c).pixel cx cy = s.pixel cx cy := rfl
@[simp] theorem State.setFlag_keyDown (c : Bool) (y : Nibble) : (s.setFlag c).keyDown y = s.keyDown y := rfl
@[simp] theorem State.setFlag_lowestKey (c : Bool) : (s.setFlag c).lowestKey = s.lowestKey := rfl
@[simp] theorem State.setFlag_randomSample (c : Bool) : (s.setFlag c).randomSample = s.randomSample := rfl
@[simp] theorem State.setFlag_fetchWord (c : Bool) : (s.setFlag c).fetchWord = s.fetchWord := rfl

/-! ### setIndex -/

@[simp] theorem State.setIndex_regs (a : Word) : (s.setIndex a).regs = s.regs := rfl
@[simp] theorem State.setIndex_index (a : Word) : (s.setIndex a).index = a := rfl
@[simp] theorem State.setIndex_pc (a : Word) : (s.setIndex a).pc = s.pc := rfl
@[simp] theorem State.setIndex_mem (a : Word) : (s.setIndex a).mem = s.mem := rfl
@[simp] theorem State.setIndex_stack (a : Word) : (s.setIndex a).stack = s.stack := rfl
@[simp] theorem State.setIndex_sp (a : Word) : (s.setIndex a).sp = s.sp := rfl
@[simp] theorem State.setIndex_dt (a : Word) : (s.setIndex a).dt = s.dt := rfl
@[simp] theorem State.setIndex_st (a : Word) : (s.setIndex a).st = s.st := rfl
@[simp] theorem State.setIndex_keys (a : Word) : (s.setIndex a).keys = s.keys := rfl
@[simp] theorem State.setIndex_fb (a : Word) : (s.setIndex a).fb = s.fb := rfl
@[simp] theorem State.setIndex_gaps (a : Word) : (s.setIndex a).gaps = s.gaps := rfl
@[simp] theorem State.setIndex_randomIn (a : Word) : (s.setIndex a).randomIn = s.randomIn := rfl
@[simp] theorem State.setIndex_randomCount (a : Word) : (s.setIndex a).randomCount = s.randomCount := rfl
@[simp] theorem State.setIndex_v (a : Word) (y : Nibble) : (s.setIndex a).v y = s.v y := rfl
@[simp] theorem State.setIndex_memRead (a : Word) (m : Nat) : (s.setIndex a).memRead m = s.memRead m := rfl
@[simp] theorem State.setIndex_pixel (a : Word) (cx : Fin 64) (cy : Fin 32) : (s.setIndex a).pixel cx cy = s.pixel cx cy := rfl
@[simp] theorem State.setIndex_keyDown (a : Word) (y : Nibble) : (s.setIndex a).keyDown y = s.keyDown y := rfl
@[simp] theorem State.setIndex_keyNumber (a : Word) (y : Nibble) : (s.setIndex a).keyNumber y = s.keyNumber y := rfl
@[simp] theorem State.setIndex_lowestKey (a : Word) : (s.setIndex a).lowestKey = s.lowestKey := rfl
@[simp] theorem State.setIndex_randomSample (a : Word) : (s.setIndex a).randomSample = s.randomSample := rfl
@[simp] theorem State.setIndex_fetchWord (a : Word) : (s.setIndex a).fetchWord = s.fetchWord := rfl

/-! ### setDt -/

@[simp] theorem State.setDt_regs (b : Byte) : (s.setDt b).regs = s.regs := rfl
@[simp] theorem State.setDt_index (b : Byte) : (s.setDt b).index = s.index := rfl
@[simp] theorem State.setDt_pc (b : Byte) : (s.setDt b).pc = s.pc := rfl
@[simp] theorem State.setDt_mem (b : Byte) : (s.setDt b).mem = s.mem := rfl
@[simp] theorem State.setDt_stack (b : Byte) : (s.setDt b).stack = s.stack := rfl
@[simp] theorem State.setDt_sp (b : Byte) : (s.setDt b).sp = s.sp := rfl
@[simp] theorem State.setDt_dt (b : Byte) : (s.setDt b).dt = b := rfl
@[simp] theorem State.setDt_st (b : Byte) : (s.setDt b).st = s.st := rfl
@[simp] theorem State.setDt_keys (b : Byte) : (s.setDt b).keys = s.keys := rfl
@[simp] theorem State.setDt_fb (b : Byte) : (s.setDt b).fb = s.fb := rfl
@[simp] theorem State.setDt_gaps (b : Byte) : (s.setDt b).gaps = s.gaps := rfl
@[simp] theorem State.setDt_randomIn (b : Byte) : (s.setDt b).randomIn = s.randomIn := rfl
@[simp] theorem State.setDt_randomCount (b : Byte) : (s.setDt b).randomCount = s.randomCount := rfl
@[simp] theorem State.setDt_v (b : Byte) (y : Nibble) : (s.setDt b).v y = s.v y := rfl
@[simp] theorem State.setDt_memRead (b : Byte) (m : Nat) : (s.setDt b).memRead m = s.memRead m := rfl
@[simp] theorem State.setDt_pixel (b : Byte) (cx : Fin 64) (cy : Fin 32) : (s.setDt b).pixel cx cy = s.pixel cx cy := rfl
@[simp] theorem State.setDt_keyDown (b : Byte) (y : Nibble) : (s.setDt b).keyDown y = s.keyDown y := rfl
@[simp] theorem State.setDt_keyNumber (b : Byte) (y : Nibble) : (s.setDt b).keyNumber y = s.keyNumber y := rfl
@[simp] theorem State.setDt_lowestKey (b : Byte) : (s.setDt b).lowestKey = s.lowestKey := rfl
@[simp] theorem State.setDt_randomSample (b : Byte) : (s.setDt b).randomSample = s.randomSample := rfl
@[simp] theorem State.setDt_fetchWord (b : Byte) : (s.setDt b).fetchWord = s.fetchWord := rfl

/-! ### setSt -/

@[simp] theorem State.setSt_regs (b : Byte) : (s.setSt b).regs = s.regs := rfl
@[simp] theorem State.setSt_index (b : Byte) : (s.setSt b).index = s.index := rfl
@[simp] theorem State.setSt_pc (b : Byte) : (s.setSt b).pc = s.pc := rfl
@[simp] theorem State.setSt_mem (b : Byte) : (s.setSt b).mem = s.mem := rfl
@[simp] theorem State.setSt_stack (b : Byte) : (s.setSt b).stack = s.stack := rfl
@[simp] theorem State.setSt_sp (b : Byte) : (s.setSt b).sp = s.sp := rfl
@[simp] theorem State.setSt_dt (b : Byte) : (s.setSt b).dt = s.dt := rfl
@[simp] theorem State.setSt_st (b : Byte) : (s.setSt b).st = b := rfl
@[simp] theorem State.setSt_keys (b : Byte) : (s.setSt b).keys = s.keys := rfl
@[simp] theorem State.setSt_fb (b : Byte) : (s.setSt b).fb = s.fb := rfl
@[simp] theorem State.setSt_gaps (b : Byte) : (s.setSt b).gaps = s.gaps := rfl
@[simp] theorem State.setSt_randomIn (b : Byte) : (s.setSt b).randomIn = s.randomIn := rfl
@[simp] theorem State.setSt_randomCount (b : Byte) : (s.setSt b).randomCount = s.randomCount := rfl
@[simp] theorem State.setSt_v (b : Byte) (y : Nibble) : (s.setSt b).v y = s.v y := rfl
@[simp] theorem State.setSt_memRead (b : Byte) (m : Nat) : (s.setSt b).memRead m = s.memRead m := rfl
@[simp] theorem State.setSt_pixel (b : Byte) (cx : Fin 64) (cy : Fin 32) : (s.setSt b).pixel cx cy = s.pixel cx cy := rfl
@[simp] theorem State.setSt_keyDown (b : Byte) (y : Nibble) : (s.setSt b).keyDown y = s.keyDown y := rfl
@[simp] theorem State.setSt_keyNumber (b : Byte) (y : Nibble) : (s.setSt b).keyNumber y = s.keyNumber y := rfl
@[simp] theorem State.setSt_lowestKey (b : Byte) : (s.setSt b).lowestKey = s.lowestKey := rfl
@[simp] theorem State.setSt_randomSample (b : Byte) : (s.setSt b).randomSample = s.randomSample := rfl
@[simp] theorem State.setSt_fetchWord (b : Byte) : (s.setSt b).fetchWord = s.fetchWord := rfl

/-! ### setPc -/

@[simp] theorem State.setPc_regs (n : Nat) : (s.setPc n).regs = s.regs := rfl
@[simp] theorem State.setPc_index (n : Nat) : (s.setPc n).index = s.index := rfl
theorem State.setPc_pc (n : Nat) : (s.setPc n).pc = BitVec.ofNat 16 (n % 4096) := rfl
@[simp] theorem State.setPc_mem (n : Nat) : (s.setPc n).mem = s.mem := rfl
@[simp] theorem State.setPc_stack (n : Nat) : (s.setPc n).stack = s.stack := rfl
@[simp] theorem State.setPc_sp (n : Nat) : (s.setPc n).sp = s.sp := rfl
@[simp] theorem State.setPc_dt (n : Nat) : (s.setPc n).dt = s.dt := rfl
@[simp] theorem State.setPc_st (n : Nat) : (s.setPc n).st = s.st := rfl
@[simp] theorem State.setPc_keys (n : Nat) : (s.setPc n).keys = s.keys := rfl
@[simp] theorem State.setPc_fb (n : Nat) : (s.setPc n).fb = s.fb := rfl
@[simp] theorem State.setPc_gaps (n : Nat) : (s.setPc n).gaps = s.gaps := rfl
@[simp] theorem State.setPc_randomIn (n : Nat) : (s.setPc n).randomIn = s.randomIn := rfl
@[simp] theorem State.setPc_randomCount (n : Nat) : (s.setPc n).randomCount = s.randomCount := rfl
@[simp] theorem State.setPc_v (n : Nat) (y : Nibble) : (s.setPc n).v y = s.v y := rfl
@[simp] theorem State.setPc_memRead (n : Nat) (m : Nat) : (s.setPc n).memRead m = s.memRead m := rfl
@[simp] theorem State.setPc_pixel (n : Nat) (cx : Fin 64) (cy : Fin 32) : (s.setPc n).pixel cx cy = s.pixel cx cy := rfl
@[simp] theorem State.setPc_keyDown (n : Nat) (y : Nibble) : (s.setPc n).keyDown y = s.keyDown y := rfl
@[simp] theorem State.setPc_keyNumber (n : Nat) (y : Nibble) : (s.setPc n).keyNumber y = s.keyNumber y := rfl
@[simp] theorem State.setPc_lowestKey (n : Nat) : (s.setPc n).lowestKey = s.lowestKey := rfl
@[simp] theorem State.setPc_randomSample (n : Nat) : (s.setPc n).randomSample = s.randomSample := rfl

/-! ### advance -/

@[simp] theorem State.advance_regs (k : Nat) : (s.advance k).regs = s.regs := rfl
@[simp] theorem State.advance_index (k : Nat) : (s.advance k).index = s.index := rfl
theorem State.advance_pc (k : Nat) : (s.advance k).pc = BitVec.ofNat 16 ((s.pc.toNat + k) % 4096) := rfl
@[simp] theorem State.advance_mem (k : Nat) : (s.advance k).mem = s.mem := rfl
@[simp] theorem State.advance_stack (k : Nat) : (s.advance k).stack = s.stack := rfl
@[simp] theorem State.advance_sp (k : Nat) : (s.advance k).sp = s.sp := rfl
@[simp] theorem State.advance_dt (k : Nat) : (s.advance k).dt = s.dt := rfl
@[simp] theorem State.advance_st (k : Nat) : (s.advance k).st = s.st := rfl
@[simp] theorem State.advance_keys (k : Nat) : (s.advance k).keys = s.keys := rfl
@[simp] theorem State.advance_fb (k : Nat) : (s.advance k).fb = s.fb := rfl
@[simp] theorem State.advance_gaps (k : Nat) : (s.advance k).gaps = s.gaps := rfl
@[simp] theorem State.advance_randomIn (k : Nat) : (s.advance k).randomIn = s.randomIn := rfl
@[simp] theorem State.advance_randomCount (k : Nat) : (s.advance k).randomCount = s.randomCount := rfl
@[simp] theorem State.advance_v (k : Nat) (y : Nibble) : (s.advance k).v y = s.v y := rfl
@[simp] theorem State.advance_memRead (k : Nat) (m : Nat) : (s.advance k).memRead m = s.memRead m := rfl
@[simp] theorem State.advance_pixel (k : Nat) (cx : Fin 64) (cy : Fin 32) : (s.advance k).pixel cx cy = s.pixel cx cy := rfl
@[simp] theorem State.advance_keyDown (k : Nat) (y : Nibble) : (s.advance k).keyDown y = s.keyDown y := rfl
@[simp] theorem State.advance_keyNumber (k : Nat) (y : Nibble) : (s.advance k).keyNumber y = s.keyNumber y := rfl
@[simp] theorem State.advance_lowestKey (k : Nat) : (s.advance k).lowestKey = s.lowestKey := rfl
@[simp] theorem State.advance_randomSample (k : Nat) : (s.advance k).randomSample = s.randomSample := rfl

/-! ### skipIf -/

@[simp] theorem State.skipIf_regs (c : Bool) : (s.skipIf c).regs = s.regs := rfl
@[simp] theorem State.skipIf_index (c : Bool) : (s.skipIf c).index = s.index := rfl
theorem State.skipIf_pc (c : Bool) : (s.skipIf c).pc = BitVec.ofNat 16 ((s.pc.toNat + (if c then 4 else 2)) % 4096) := rfl
@[simp] theorem State.skipIf_mem (c : Bool) : (s.skipIf c).mem = s.mem := rfl
@[simp] theorem State.skipIf_stack (c : Bool) : (s.skipIf c).stack = s.stack := rfl
@[simp] theorem State.skipIf_sp (c : Bool) : (s.skipIf c).sp = s.sp := rfl
@[simp] theorem State.skipIf_dt (c : Bool) : (s.skipIf c).dt = s.dt := rfl
@[simp] theorem State.skipIf_st (c : Bool) : (s.skipIf c).st = s.st := rfl
@[simp] theorem State.skipIf_keys (c : Bool) : (s.skipIf c).keys = s.keys := rfl
@[simp] theorem State.skipIf_fb (c : Bool) : (s.skipIf c).fb = s.fb := rfl
@[simp] theorem State.skipIf_gaps (c : Bool) : (s.skipIf c).gaps = s.gaps := rfl
@[simp] theorem State.skipIf_randomIn (c : Bool) : (s.skipIf c).randomIn = s.randomIn := rfl
@[simp] theorem State.skipIf_randomCount (c : Bool) : (s.skipIf c).randomCount = s.randomCount := rfl
@[simp] theorem State.skipIf_v (c : Bool) (y : Nibble) : (s.skipIf c).v y = s.v y := rfl
@[simp] theorem State.skipIf_memRead (c : Bool) (m : Nat) : (s.skipIf c).memRead m = s.memRead m := rfl
@[simp] theorem State.skipIf_pixel (c : Bool) (cx : Fin 64) (cy : Fin 32) : (s.skipIf c).pixel cx cy = s.pixel cx cy := rfl
@[simp] theorem State.skipIf_keyDown (c : Bool) (y : Nibble) : (s.skipIf c).keyDown y = s.keyDown y := rfl
@[simp] theorem State.skipIf_keyNumber (c : Bool) (y : Nibble) : (s.skipIf c).keyNumber y = s.keyNumber y := rfl
@[simp] theorem State.skipIf_lowestKey (c : Bool) : (s.skipIf c).lowestKey = s.lowestKey := rfl
@[simp] theorem State.skipIf_randomSample (c : Bool) : (s.skipIf c).randomSample = s.randomSample := rfl

/-! ### memWrite -/

@[simp] theorem State.memWrite_regs (a : Nat) (b : Byte) : (s.memWrite a b).regs = s.regs := rfl
@[simp] theorem State.memWrite_index (a : Nat) (b : Byte) : (s.memWrite a b).index = s.index := rfl
@[simp] theorem State.memWrite_pc (a : Nat) (b : Byte) : (s.memWrite a b).pc = s.pc := rfl
@[simp] theorem State.memWrite_mem (a : Nat) (b : Byte) : (s.memWrite a b).mem = s.mem.write (a % 4096) b := rfl
@[simp] theorem State.memWrite_stack (a : Nat) (b : Byte) : (s.memWrite a b).stack = s.stack := rfl
@[simp] theorem State.memWrite_sp (a : Nat) (b : Byte) : (s.memWrite a b).sp = s.sp := rfl
@[simp] theorem State.memWrite_dt (a : Nat) (b : Byte) : (s.memWrite a b).dt = s.dt := rfl
@[simp] theorem State.memWrite_st (a : Nat) (b : Byte) : (s.memWrite a b).st = s.st := rfl
@[simp] theorem State.memWrite_keys (a : Nat) (b : Byte) : (s.memWrite a b).keys = s.keys := rfl
@[simp] theorem State.memWrite_fb (a : Nat) (b : Byte) : (s.memWrite a b).fb = s.fb := rfl
@[simp] theorem State.memWrite_gaps (a : Nat) (b : Byte) : (s.memWrite a b).gaps = s.gaps := rfl
@[simp] theorem State.memWrite_randomIn (a : Nat) (b : Byte) : (s.memWrite a b).randomIn = s.randomIn := rfl
@[simp] theorem State.memWrite_randomCount (a : Nat) (b : Byte) : (s.memWrite a b).randomCount = s.randomCount := rfl
@[simp] theorem State.memWrite_v (a : Nat) (b : Byte) (y : Nibble) : (s.memWrite a b).v y = s.v y := rfl
@[simp] theorem State.memWrite_pixel (a : Nat) (b : Byte) (cx : Fin 64) (cy : Fin 32) : (s.memWrite a b).pixel cx cy = s.pixel cx cy := rfl
@[simp] theorem State.memWrite_keyDown (a : Nat) (b : Byte) (y : Nibble) : (s.memWrite a b).keyDown y = s.keyDown y := rfl
@[simp] theorem State.memWrite_keyNumber (a : Nat) (b : Byte) (y : Nibble) : (s.memWrite a b).keyNumber y = s.keyNumber y := rfl
@[simp] theorem State.memWrite_lowestKey (a : Nat) (b : Byte) : (s.memWrite a b).lowestKey = s.lowestKey := rfl
@[simp] theorem State.memWrite_randomSample (a : Nat) (b : Byte) : (s.memWrite a b).randomSample = s.randomSample := rfl

/-! ### setFb -/

@[simp] theorem State.setFb_regs (f : Framebuffer) : (s.setFb f).regs = s.regs := rfl
@[simp] theorem State.setFb_index (f : Framebuffer) : (s.setFb f).index = s.index := rfl
@[simp] theorem State.setFb_pc (f : Framebuffer) : (s.setFb f).pc = s.pc := rfl
@[simp] theorem State.setFb_mem (f : Framebuffer) : (s.setFb f).mem = s.mem := rfl
@[simp] theorem State.setFb_stack (f : Framebuffer) : (s.setFb f).stack = s.stack := rfl
@[simp] theorem State.setFb_sp (f : Framebuffer) : (s.setFb f).sp = s.sp := rfl
@[simp] theorem State.setFb_dt (f : Framebuffer) : (s.setFb f).dt = s.dt := rfl
@[simp] theorem State.setFb_st (f : Framebuffer) : (s.setFb f).st = s.st := rfl
@[simp] theorem State.setFb_keys (f : Framebuffer) : (s.setFb f).keys = s.keys := rfl
@[simp] theorem State.setFb_fb (f : Framebuffer) : (s.setFb f).fb = f := rfl
@[simp] theorem State.setFb_gaps (f : Framebuffer) : (s.setFb f).gaps = s.gaps := rfl
@[simp] theorem State.setFb_randomIn (f : Framebuffer) : (s.setFb f).randomIn = s.randomIn := rfl
@[simp] theorem State.setFb_randomCount (f : Framebuffer) : (s.setFb f).randomCount = s.randomCount := rfl
@[simp] theorem State.setFb_v (f : Framebuffer) (y : Nibble) : (s.setFb f).v y = s.v y := rfl
@[simp] theorem State.setFb_memRead (f : Framebuffer) (m : Nat) : (s.setFb f).memRead m = s.memRead m := rfl
@[simp] theorem State.setFb_keyDown (f : Framebuffer) (y : Nibble) : (s.setFb f).keyDown y = s.keyDown y := rfl
@[simp] theorem State.setFb_keyNumber (f : Framebuffer) (y : Nibble) : (s.setFb f).keyNumber y = s.keyNumber y := rfl
@[simp] theorem State.setFb_lowestKey (f : Framebuffer) : (s.setFb f).lowestKey = s.lowestKey := rfl
@[simp] theorem State.setFb_randomSample (f : Framebuffer) : (s.setFb f).randomSample = s.randomSample := rfl
@[simp] theorem State.setFb_fetchWord (f : Framebuffer) : (s.setFb f).fetchWord = s.fetchWord := rfl

/-! ### consumeRandom -/

@[simp] theorem State.consumeRandom_regs : (s.consumeRandom).regs = s.regs := rfl
@[simp] theorem State.consumeRandom_index : (s.consumeRandom).index = s.index := rfl
@[simp] theorem State.consumeRandom_pc : (s.consumeRandom).pc = s.pc := rfl
@[simp] theorem State.consumeRandom_mem : (s.consumeRandom).mem = s.mem := rfl
@[simp] theorem State.consumeRandom_stack : (s.consumeRandom).stack = s.stack := rfl
@[simp] theorem State.consumeRandom_sp : (s.consumeRandom).sp = s.sp := rfl
@[simp] theorem State.consumeRandom_dt : (s.consumeRandom).dt = s.dt := rfl
@[simp] theorem State.consumeRandom_st : (s.consumeRandom).st = s.st := rfl
@[simp] theorem State.consumeRandom_keys : (s.consumeRandom).keys = s.keys := rfl
@[simp] theorem State.consumeRandom_fb : (s.consumeRandom).fb = s.fb := rfl
@[simp] theorem State.consumeRandom_gaps : (s.consumeRandom).gaps = s.gaps := rfl
@[simp] theorem State.consumeRandom_randomIn : (s.consumeRandom).randomIn = s.randomIn.tail := rfl
@[simp] theorem State.consumeRandom_randomCount : (s.consumeRandom).randomCount = s.randomCount + 1 := rfl
@[simp] theorem State.consumeRandom_v (y : Nibble) : (s.consumeRandom).v y = s.v y := rfl
@[simp] theorem State.consumeRandom_memRead (m : Nat) : (s.consumeRandom).memRead m = s.memRead m := rfl
@[simp] theorem State.consumeRandom_pixel (cx : Fin 64) (cy : Fin 32) : (s.consumeRandom).pixel cx cy = s.pixel cx cy := rfl
@[simp] theorem State.consumeRandom_keyDown (y : Nibble) : (s.consumeRandom).keyDown y = s.keyDown y := rfl
@[simp] theorem State.consumeRandom_keyNumber (y : Nibble) : (s.consumeRandom).keyNumber y = s.keyNumber y := rfl
@[simp] theorem State.consumeRandom_lowestKey : (s.consumeRandom).lowestKey = s.lowestKey := rfl
@[simp] theorem State.consumeRandom_fetchWord : (s.consumeRandom).fetchWord = s.fetchWord := rfl

/-! ### setKeys -/

@[simp] theorem State.setKeys_regs (k : Keys) : (s.setKeys k).regs = s.regs := rfl
@[simp] theorem State.setKeys_index (k : Keys) : (s.setKeys k).index = s.index := rfl
@[simp] theorem State.setKeys_pc (k : Keys) : (s.setKeys k).pc = s.pc := rfl
@[simp] theorem State.setKeys_mem (k : Keys) : (s.setKeys k).mem = s.mem := rfl
@[simp] theorem State.setKeys_stack (k : Keys) : (s.setKeys k).stack = s.stack := rfl
@[simp] theorem State.setKeys_sp (k : Keys) : (s.setKeys k).sp = s.sp := rfl
@[simp] theorem State.setKeys_dt (k : Keys) : (s.setKeys k).dt = s.dt := rfl
@[simp] theorem State.setKeys_st (k : Keys) : (s.setKeys k).st = s.st := rfl
@[simp] theorem State.setKeys_keys (k : Keys) : (s.setKeys k).keys = k := rfl
@[simp] theorem State.setKeys_fb (k : Keys) : (s.setKeys k).fb = s.fb := rfl
@[simp] theorem State.setKeys_gaps (k : Keys) : (s.setKeys k).gaps = s.gaps := rfl
@[simp] theorem State.setKeys_randomIn (k : Keys) : (s.setKeys k).randomIn = s.randomIn := rfl
@[simp] theorem State.setKeys_randomCount (k : Keys) : (s.setKeys k).randomCount = s.randomCount := rfl
@[simp] theorem State.setKeys_v (k : Keys) (y : Nibble) : (s.setKeys k).v y = s.v y := rfl
@[simp] theorem State.setKeys_memRead (k : Keys) (m : Nat) : (s.setKeys k).memRead m = s.memRead m := rfl
@[simp] theorem State.setKeys_pixel (k : Keys) (cx : Fin 64) (cy : Fin 32) : (s.setKeys k).pixel cx cy = s.pixel cx cy := rfl
@[simp] theorem State.setKeys_keyNumber (k : Keys) (y : Nibble) : (s.setKeys k).keyNumber y = s.keyNumber y := rfl
@[simp] theorem State.setKeys_randomSample (k : Keys) : (s.setKeys k).randomSample = s.randomSample := rfl
@[simp] theorem State.setKeys_fetchWord (k : Keys) : (s.setKeys k).fetchWord = s.fetchWord := rfl

/-! ### tick -/

@[simp] theorem State.tick_regs : (s.tick).regs = s.regs := rfl
@[simp] theorem State.tick_index : (s.tick).index = s.index := rfl
@[simp] theorem State.tick_pc : (s.tick).pc = s.pc := rfl
@[simp] theorem State.tick_mem : (s.tick).mem = s.mem := rfl
@[simp] theorem State.tick_stack : (s.tick).stack = s.stack := rfl
@[simp] theorem State.tick_sp : (s.tick).sp = s.sp := rfl
@[simp] theorem State.tick_dt : (s.tick).dt = countDown s.dt := rfl
@[simp] theorem State.tick_st : (s.tick).st = countDown s.st := rfl
@[simp] theorem State.tick_keys : (s.tick).keys = s.keys := rfl
@[simp] theorem State.tick_fb : (s.tick).fb = s.fb := rfl
@[simp] theorem State.tick_gaps : (s.tick).gaps = s.gaps := rfl
@[simp] theorem State.tick_randomIn : (s.tick).randomIn = s.randomIn := rfl
@[simp] theorem State.tick_randomCount : (s.tick).randomCount = s.randomCount := rfl
@[simp] theorem State.tick_v (y : Nibble) : (s.tick).v y = s.v y := rfl
@[simp] theorem State.tick_memRead (m : Nat) : (s.tick).memRead m = s.memRead m := rfl
@[simp] theorem State.tick_pixel (cx : Fin 64) (cy : Fin 32) : (s.tick).pixel cx cy = s.pixel cx cy := rfl
@[simp] theorem State.tick_keyDown (y : Nibble) : (s.tick).keyDown y = s.keyDown y := rfl
@[simp] theorem State.tick_keyNumber (y : Nibble) : (s.tick).keyNumber y = s.keyNumber y := rfl
@[simp] theorem State.tick_lowestKey : (s.tick).lowestKey = s.lowestKey := rfl
@[simp] theorem State.tick_randomSample : (s.tick).randomSample = s.randomSample := rfl
@[simp] theorem State.tick_fetchWord : (s.tick).fetchWord = s.fetchWord := rfl

/-! ### supplyRandom -/

@[simp] theorem State.supplyRandom_regs (b : Byte) : (s.supplyRandom b).regs = s.regs := rfl
@[simp] theorem State.supplyRandom_index (b : Byte) : (s.supplyRandom b).index = s.index := rfl
@[simp] theorem State.supplyRandom_pc (b : Byte) : (s.supplyRandom b).pc = s.pc := rfl
@[simp] theorem State.supplyRandom_mem (b : Byte) : (s.supplyRandom b).mem = s.mem := rfl
@[simp] theorem State.supplyRandom_stack (b : Byte) : (s.supplyRandom b).stack = s.stack := rfl
@[simp] theorem State.supplyRandom_sp (b : Byte) : (s.supplyRandom b).sp = s.sp := rfl
@[simp] theorem State.supplyRandom_dt (b : Byte) : (s.supplyRandom b).dt = s.dt := rfl
@[simp] theorem State.supplyRandom_st (b : Byte) : (s.supplyRandom b).st = s.st := rfl
@[simp] theorem State.supplyRandom_keys (b : Byte) : (s.supplyRandom b).keys = s.keys := rfl
@[simp] theorem State.supplyRandom_fb (b : Byte) : (s.supplyRandom b).fb = s.fb := rfl
@[simp] theorem State.supplyRandom_gaps (b : Byte) : (s.supplyRandom b).gaps = s.gaps := rfl
@[simp] theorem State.supplyRandom_randomIn (b : Byte) : (s.supplyRandom b).randomIn = s.randomIn ++ [b] := rfl
@[simp] theorem State.supplyRandom_randomCount (b : Byte) : (s.supplyRandom b).randomCount = s.randomCount := rfl
@[simp] theorem State.supplyRandom_v (b : Byte) (y : Nibble) : (s.supplyRandom b).v y = s.v y := rfl
@[simp] theorem State.supplyRandom_memRead (b : Byte) (m : Nat) : (s.supplyRandom b).memRead m = s.memRead m := rfl
@[simp] theorem State.supplyRandom_pixel (b : Byte) (cx : Fin 64) (cy : Fin 32) : (s.supplyRandom b).pixel cx cy = s.pixel cx cy := rfl
@[simp] theorem State.supplyRandom_keyDown (b : Byte) (y : Nibble) : (s.supplyRandom b).keyDown y = s.keyDown y := rfl
@[simp] theorem State.supplyRandom_keyNumber (b : Byte) (y : Nibble) : (s.supplyRandom b).keyNumber y = s.keyNumber y := rfl
@[simp] theorem State.supplyRandom_lowestKey (b : Byte) : (s.supplyRandom b).lowestKey = s.lowestKey := rfl
@[simp] theorem State.supplyRandom_fetchWord (b : Byte) : (s.supplyRandom b).fetchWord = s.fetchWord := rfl

end Sys2Proof.Machine
end

