-- ==== Sys2Proof/Laws/Memory.lean ====
section
/-! SUPPORT. Memory: what a read gives after a write, on any list of entries, and that every memory
operation keeps the canonical form. -/

namespace Sys2Proof.Machine

@[simp] theorem Memory.read_nil (a : Nat) : Memory.read [] a = Config.memInit a := rfl

@[simp] theorem Memory.read_cons (b : Nat) (v : Byte) (m : Memory) (a : Nat) :
    Memory.read ((b, v) :: m) a = if a = b then v else m.read a := rfl

theorem Memory.read_without (m : Memory) (a b : Nat) :
    (m.without a).read b = if b = a then Config.memInit a else m.read b := by
  induction m with
  | nil => by_cases h : b = a <;> simp [Memory.without, h]
  | cons c m ih =>
    obtain ⟨d, v⟩ := c
    by_cases hd : d = a
    · subst hd
      simp only [Memory.without, List.filter, bne_self_eq_false, Memory.read_cons]
      by_cases hb : b = d <;> simp_all [Memory.without]
    · have : (d != a) = true := by simpa using hd
      simp only [Memory.without, List.filter, this, Memory.read_cons]
      by_cases hb : b = a
      · subst hb
        have : b ≠ d := fun h => hd h.symm
        simp_all [Memory.without]
      · simp_all [Memory.without]

theorem Memory.read_insert (m : Memory) (a b : Nat) (v : Byte) (h : ∀ c ∈ m, c.1 ≠ a) :
    (m.insert a v).read b = if b = a then v else m.read b := by
  induction m with
  | nil => simp [Memory.insert]
  | cons c m ih =>
    obtain ⟨d, w⟩ := c
    have hd : d ≠ a := h (d, w) (by simp)
    have ih := ih (fun c hc => h c (by simp [hc]))
    by_cases hlt : a < d
    · simp [Memory.insert, hlt]
    · by_cases hb : b = a
      · subst hb
        simp [Memory.insert, hlt, ih, Ne.symm hd]
      · simp [Memory.insert, hlt, ih, hb]

theorem Memory.without_ne (m : Memory) (a : Nat) : ∀ c ∈ m.without a, c.1 ≠ a := by
  intro c hc
  simpa using (List.mem_filter.mp hc).2

/-- A read after a write gives the byte written, and every other address reads as before; the memory
need not be canonical. -/
theorem Memory.read_write (m : Memory) (a b : Nat) (v : Byte) :
    (m.write a v).read b = if b = a then v else m.read b := by
  unfold Memory.write
  by_cases hv : v = Config.memInit a
  · simp [hv, Memory.read_without]
  · rw [if_neg hv, Memory.read_insert _ _ _ _ (m.without_ne a), Memory.read_without]
    by_cases hb : b = a <;> simp [hb]

theorem Memory.wf_nil : Memory.wf [] := by simp [Memory.wf]

theorem Memory.wf_without (m : Memory) (a : Nat) (h : m.wf) : (m.without a).wf :=
  ⟨h.1.filter _, fun c hc => h.2 c (List.mem_filter.mp hc).1⟩

theorem Memory.mem_insert (m : Memory) (a : Nat) (v : Byte) (c : Host.Cell) :
    c ∈ m.insert a v ↔ c = (a, v) ∨ c ∈ m := by
  induction m with
  | nil => simp [Memory.insert]
  | cons d m ih =>
    obtain ⟨b, w⟩ := d
    by_cases hlt : a < b
    · simp [Memory.insert, hlt]
    · simp only [Memory.insert, hlt, if_false, List.mem_cons, ih]
      tauto

theorem Memory.wf_insert (m : Memory) (a : Nat) (v : Byte) (h : m.wf) (ha : a < 4096)
    (hv : v ≠ Config.memInit a) (hne : ∀ c ∈ m, c.1 ≠ a) : (m.insert a v).wf := by
  refine ⟨?_, fun c hc => ?_⟩
  · obtain ⟨hp, -⟩ := h
    induction m with
    | nil => simp [Memory.insert]
    | cons d m ih =>
      obtain ⟨b, w⟩ := d
      have hb : b ≠ a := hne (b, w) (by simp)
      rw [List.pairwise_cons] at hp
      by_cases hlt : a < b
      · simp only [Memory.insert, hlt, if_true, List.pairwise_cons, List.mem_cons]
        refine ⟨?_, hp⟩
        rintro c (rfl | hc)
        · exact hlt
        · exact Nat.lt_trans hlt (hp.1 c hc)
      · simp only [Memory.insert, hlt, if_false, List.pairwise_cons]
        refine ⟨fun c hc => ?_, ih (fun c hc => hne c (by simp [hc])) hp.2⟩
        rcases (Memory.mem_insert m a v c).mp hc with rfl | hc
        · show b < a
          omega
        · exact hp.1 c hc
  · rcases (Memory.mem_insert m a v c).mp hc with rfl | hc
    · exact ⟨ha, hv⟩
    · exact h.2 c hc

/-- A write keeps the canonical form. -/
theorem Memory.wf_write (m : Memory) (a : Nat) (v : Byte) (h : m.wf) (ha : a < 4096) :
    (m.write a v).wf := by
  unfold Memory.write
  split
  · exact m.wf_without a h
  · next hv => exact Memory.wf_insert _ a v (m.wf_without a h) ha hv (m.without_ne a)

/-! ## Through the state's accessors -/

variable (s : State)

/-- What a state's memory reads after one byte is stored: addresses are compared mod 4096. -/
theorem State.memRead_memWrite (a c : Nat) (b : Byte) :
    (s.memWrite a b).memRead c = if c % 4096 = a % 4096 then b else s.memRead c :=
  Memory.read_write s.mem (a % 4096) (c % 4096) b

theorem State.wf_memWrite (a : Nat) (b : Byte) (h : s.mem.wf) : (s.memWrite a b).mem.wf :=
  Memory.wf_write _ _ _ h (Nat.mod_lt _ (by decide))

/-- Only the address mod 4096 matters to a read. -/
@[simp] theorem State.memRead_mod (a : Nat) : s.memRead (a % 4096) = s.memRead a := by
  simp [State.memRead]

/-! ## Storing a list of bytes -/

/-- Storing bytes changes only the memory. -/
theorem State.writeBytes_eq (bs : List Byte) (a : Nat) :
    s.writeBytes a bs = { s with mem := (s.writeBytes a bs).mem } := by
  induction bs generalizing s a with
  | nil => rfl
  | cons b bs ih =>
    rw [State.writeBytes, ih]
    rfl

theorem State.wf_writeBytes (bs : List Byte) (a : Nat) (h : s.mem.wf) : (s.writeBytes a bs).mem.wf := by
  induction bs generalizing s a with
  | nil => exact h
  | cons b bs ih => exact ih _ _ (s.wf_memWrite a b h)

/-- An address that none of the stored bytes goes to reads as before. -/
theorem State.memRead_writeBytes_of_ne (bs : List Byte) (a c : Nat)
    (h : ∀ k < bs.length, c % 4096 ≠ (a + k) % 4096) :
    (s.writeBytes a bs).memRead c = s.memRead c := by
  induction bs generalizing s a with
  | nil => rfl
  | cons b bs ih =>
    rw [State.writeBytes, ih, State.memRead_memWrite, if_neg]
    · simpa using h 0 (by simp)
    · intro k hk
      have := h (k + 1) (by simpa using hk)
      rwa [show a + 1 + k = a + (k + 1) by omega]

/-- The same of the memory itself, at an address that need not be a cell. -/
theorem State.read_writeBytes_of_ne (bs : List Byte) (a c : Nat)
    (h : ∀ k < bs.length, c ≠ (a + k) % 4096) :
    (s.writeBytes a bs).mem.read c = s.mem.read c := by
  induction bs generalizing s a with
  | nil => rfl
  | cons b bs ih =>
    rw [State.writeBytes, ih]
    · exact (Memory.read_write s.mem (a % 4096) c b).trans (if_neg (by simpa using h 0 (by simp)))
    · intro k hk
      have := h (k + 1) (by simpa using hk)
      rwa [show a + 1 + k = a + (k + 1) by omega]

/-- Byte `k` of the list goes to address `a + k` mod 4096, for a list that does not overwrite itself. -/
theorem State.memRead_writeBytes (bs : List Byte) (a k : Nat) (hk : k < bs.length)
    (hlen : bs.length ≤ 4096) : (s.writeBytes a bs).memRead (a + k) = bs[k] := by
  induction bs generalizing s a k with
  | nil => simp at hk
  | cons b bs ih =>
    rw [State.writeBytes]
    simp only [List.length_cons] at hk hlen
    cases k with
    | zero =>
      rw [State.memRead_writeBytes_of_ne, State.memRead_memWrite, if_pos]
      · rfl
      · simp
      · intro j hj
        omega
    | succ k =>
      have := ih (s.memWrite a b) (a + 1) k (by omega) (by omega)
      rw [show a + (k + 1) = a + 1 + k by omega, this]
      rfl

/-- Writing the font table changes only the memory. -/
theorem State.loadGlyphs_eq (glyphs : List Byte) :
    s.loadGlyphs glyphs = { s with mem := (s.loadGlyphs glyphs).mem } := s.writeBytes_eq glyphs 0

/-! ## Storing and loading registers -/

/-- Storing registers changes only the memory. -/
theorem State.storeRegs_eq (a n : Nat) :
    s.storeRegs a n = { s with mem := (s.storeRegs a n).mem } := by
  induction n with
  | zero => rfl
  | succ n ih =>
    rw [State.storeRegs, ih]
    rfl

theorem State.wf_storeRegs (a n : Nat) (h : s.mem.wf) : (s.storeRegs a n).mem.wf := by
  induction n with
  | zero => exact h
  | succ n ih => exact State.wf_memWrite _ _ _ ih

/-- What memory reads after `n` registers, at most 16, were stored from address `a`: at `a + k` mod 4096
the register `k`, elsewhere what it read before. -/
theorem State.memRead_storeRegs (a n : Nat) (hn : n ≤ 16) :
    (∀ k < n, (s.storeRegs a n).memRead (a + k) = s.v (BitVec.ofNat 4 k)) ∧
    ∀ c, (∀ k < n, c % 4096 ≠ (a + k) % 4096) → (s.storeRegs a n).memRead c = s.memRead c := by
  induction n with
  | zero => simp [State.storeRegs]
  | succ n ih =>
    obtain ⟨ih, ih'⟩ := ih (by omega)
    refine ⟨fun k hk => ?_, fun c hc => ?_⟩
    · rw [State.storeRegs, State.memRead_memWrite]
      split
      · rw [show k = n by omega]
      · exact ih k (by omega)
    · rw [State.storeRegs, State.memRead_memWrite, if_neg (hc n (by omega))]
      exact ih' c (fun k hk => hc k (by omega))

/-- Loading registers changes only the registers. -/
theorem State.loadRegs_eq (a n : Nat) :
    s.loadRegs a n = { s with regs := (s.loadRegs a n).regs } := by
  induction n with
  | zero => rfl
  | succ n ih =>
    rw [State.loadRegs, ih]
    rfl

end Sys2Proof.Machine
end

