-- ==== Sys2Proof/Laws/Ops.lean ====
section
/-! SUPPORT. One lemma for each shared operation over registers, the program counter, the stack, the
framebuffer and the keys that says what it does. -/

namespace Sys2Proof.Machine

variable (s : State)

/-! ## Registers -/

@[simp] theorem State.v_setV (x y : Nibble) (b : Byte) :
    (s.setV x b).v y = if y = x then b else s.v y := by
  simp only [State.v, State.setV, Vector.getElem_set, BitVec.toNat_eq]
  by_cases h : y.toNat = x.toNat
  · simp [h]
  · simp [h, Ne.symm h]

@[simp] theorem State.v_setFlag (y : Nibble) (c : Bool) :
    (s.setFlag c).v y = if y = flagReg then (if c then 1#8 else 0#8) else s.v y :=
  s.v_setV flagReg y _

/-- What registers hold after the first `n`, at most 16, were loaded from address `a`. -/
theorem State.v_loadRegs (a n : Nat) (hn : n ≤ 16) (y : Nibble) :
    (s.loadRegs a n).v y = if y.toNat < n then s.memRead (a + y.toNat) else s.v y := by
  induction n with
  | zero => simp [State.loadRegs]
  | succ n ih =>
    rw [State.loadRegs, State.v_setV, ih (by omega)]
    have hy : (y = BitVec.ofNat 4 n) ↔ y.toNat = n := by
      rw [BitVec.toNat_eq, BitVec.toNat_ofNat, Nat.mod_eq_of_lt (by omega)]
    by_cases h : y.toNat = n
    · simp [hy, h]
    · simp only [hy, h, if_false]
      by_cases h2 : y.toNat < n
      · simp [h2, Nat.lt_succ_of_lt h2]
      · rw [if_neg h2, if_neg (by omega)]

/-! ## Program counter -/

@[simp] theorem State.toNat_setPc (n : Nat) : (s.setPc n).pc.toNat = n % 4096 := by
  simp only [State.setPc_pc, BitVec.toNat_ofNat]
  omega

@[simp] theorem State.toNat_advance (k : Nat) : (s.advance k).pc.toNat = (s.pc.toNat + k) % 4096 :=
  s.toNat_setPc _

@[simp] theorem State.toNat_skipIf (c : Bool) :
    (s.skipIf c).pc.toNat = (s.pc.toNat + (if c then 4 else 2)) % 4096 :=
  s.toNat_setPc _

theorem advanced_advance (k : Nat) : Advanced k s (s.advance k) := s.toNat_advance k

/-! ## Call stack -/

/-- A push succeeds exactly when fewer than 16 entries are in use, and then stores the word at `SP` and
raises `SP`. -/
theorem State.push_eq_some (a : Word) (t : State) :
    s.push a = some t ↔ ∃ h : s.sp.val < 16,
      t = { s with stack := s.stack.set s.sp.val a h, sp := ⟨s.sp.val + 1, by omega⟩ } := by
  unfold State.push
  split
  · next h => simp [h, eq_comm]
  · next h => simp [h]

theorem State.push_eq_none (a : Word) : s.push a = none ↔ s.sp.val = 16 := by
  unfold State.push
  split <;> simp <;> omega

/-- A pop succeeds exactly when an entry is in use, and then gives the top one and lowers `SP`. -/
theorem State.pop_eq_some (a : Word) (t : State) :
    s.pop = some (a, t) ↔ ∃ h : 0 < s.sp.val,
      a = s.stack[s.sp.val - 1]'(by omega) ∧ t = { s with sp := ⟨s.sp.val - 1, by omega⟩ } := by
  unfold State.pop
  split
  · next h => simp [h, eq_comm]
  · next h => simp [h]

theorem State.pop_eq_none : s.pop = none ↔ s.sp.val = 0 := by
  unfold State.pop
  split <;> simp <;> omega

/-! ## Keys -/

/-- The place of the first `true` of a list. -/
theorem firstPressed_eq_some (l : List Bool) (k : Nat) :
    firstPressed l = some k ↔ l[k]? = some true ∧ ∀ j < k, l[j]? = some false := by
  induction l generalizing k with
  | nil => simp [firstPressed]
  | cons b l ih =>
    cases b with
    | true =>
      cases k with
      | zero => simp [firstPressed]
      | succ k => simp [firstPressed]; intro _; exact ⟨0, by omega, by simp⟩
    | false =>
      cases k with
      | zero => simp [firstPressed]
      | succ k =>
        simp only [firstPressed, Option.map_eq_some_iff, Nat.add_right_cancel_iff, exists_eq_right, ih,
          List.getElem?_cons_succ]
        refine and_congr_right fun _ => ⟨fun h j hj => ?_, fun h j hj => by simpa using h (j + 1) (by omega)⟩
        cases j with
        | zero => rfl
        | succ j => simpa using h j (by omega)

theorem firstPressed_eq_none (l : List Bool) : firstPressed l = none ↔ ∀ b ∈ l, b = false := by
  induction l with
  | nil => simp [firstPressed]
  | cons b l ih => cases b <;> simp [firstPressed, ih]

/-- The lowest pressed key (42_misc.md R142): it is pressed, and no lower one is. -/
theorem State.lowestKey_eq_some (k : Nat) :
    s.lowestKey = some k ↔ ∃ h : k < 16, s.keys[k] = true ∧ ∀ j (_ : j < k), s.keys[j] = false := by
  unfold State.lowestKey
  rw [firstPressed_eq_some]
  simp only [Vector.getElem?_toList, Vector.getElem?_eq_some_iff]
  constructor
  · rintro ⟨⟨h, hk⟩, hj⟩
    exact ⟨h, hk, fun j hlt => (hj j hlt).2⟩
  · rintro ⟨h, hk, hj⟩
    exact ⟨⟨h, hk⟩, fun j hlt => ⟨by omega, hj j hlt⟩⟩

theorem State.lowestKey_eq_none : s.lowestKey = none ↔ ∀ k (_ : k < 16), s.keys[k] = false := by
  unfold State.lowestKey
  rw [firstPressed_eq_none]
  constructor
  · intro h k hk
    exact h _ (by simp)
  · intro h b hb
    obtain ⟨k, hk, rfl⟩ := List.getElem_of_mem hb
    simpa using h k (by simpa using hk)

/-! ## Framebuffer -/

@[simp] theorem Framebuffer.pixel_setPixel (f : Framebuffer) (cx px : Fin 64) (cy py : Fin 32) (b : Bool) :
    (f.setPixel cx cy b).pixel px py = if px = cx ∧ py = cy then b else f.pixel px py := by
  simp only [Framebuffer.pixel, Framebuffer.setPixel, Vector.getElem_set]
  by_cases hx : px = cx
  · subst hx
    by_cases hy : py = cy
    · subst hy; simp
    · have : cy.val ≠ py.val := fun h => hy (Fin.ext h.symm)
      simp [hy, this]
  · have : cx.val ≠ px.val := fun h => hx (Fin.ext h.symm)
    simp [hx, this]

@[simp] theorem Framebuffer.pixel_blank (px : Fin 64) (py : Fin 32) : Framebuffer.blank.pixel px py = false := by
  simp [Framebuffer.pixel, Framebuffer.blank]

/-- Two framebuffers with the same pixels are equal. -/
theorem Framebuffer.ext_pixel (f g : Framebuffer) (h : ∀ px py, f.pixel px py = g.pixel px py) : f = g := by
  refine Vector.ext fun i hi => Vector.ext fun j hj => ?_
  exact h ⟨i, hi⟩ ⟨j, hj⟩

/-- The bit that the first `count` bits of a sprite row at column `cx`, row `cy` lay on a pixel. -/
def rowBit (b : Byte) (cx : Fin 64) (cy : Fin 32) (count : Nat) (px : Fin 64) (py : Fin 32) : Bool :=
  decide (py = cy) && decide ((px.val + 64 - cx.val) % 64 < count) && b.getMsbD ((px.val + 64 - cx.val) % 64)

/-- A partial blit, pixel by pixel: XOR with the row's bit, and a hit exactly where a 1 bit lies on a
pixel that was on. -/
theorem Framebuffer.blitBits_spec (f : Framebuffer) (b : Byte) (cx : Fin 64) (cy : Fin 32) (count : Nat)
    (hc : count ≤ 64) :
    (∀ px py, (f.blitBits b cx cy count).1.pixel px py = (f.pixel px py ^^ rowBit b cx cy count px py)) ∧
    ((f.blitBits b cx cy count).2 = true ↔
      ∃ px py, f.pixel px py = true ∧ rowBit b cx cy count px py = true) := by
  induction count with
  | zero => simp [Framebuffer.blitBits, rowBit]
  | succ i ih =>
    obtain ⟨ihp, ihh⟩ := ih (by omega)
    have hcol : ∀ px : Fin 64, px = Fin.ofNat 64 (cx.val + i) ↔ (px.val + 64 - cx.val) % 64 = i := by
      intro px
      rw [Fin.ext_iff, Fin.val_ofNat]
      omega
    have hbit : ∀ px py, rowBit b cx cy (i + 1) px py =
        if px = Fin.ofNat 64 (cx.val + i) ∧ py = cy then b.getMsbD i else rowBit b cx cy i px py := by
      intro px py
      by_cases hp : px = Fin.ofNat 64 (cx.val + i) ∧ py = cy
      · rw [if_pos hp]
        simp [rowBit, (hcol px).mp hp.1, hp.2]
      · rw [if_neg hp]
        by_cases hy : py = cy
        · have hne : (px.val + 64 - cx.val) % 64 ≠ i := fun h => hp ⟨(hcol px).mpr h, hy⟩
          have : ((px.val + 64 - cx.val) % 64 < i + 1) ↔ ((px.val + 64 - cx.val) % 64 < i) := by omega
          simp only [rowBit, this]
        · simp [rowBit, hy]
    have hself : rowBit b cx cy i (Fin.ofNat 64 (cx.val + i)) cy = false := by
      have := (hcol (Fin.ofNat 64 (cx.val + i))).mp rfl
      simp only [rowBit, this, Nat.lt_irrefl, decide_false, Bool.and_false, Bool.false_and]
    simp only [Framebuffer.blitBits]
    generalize hfb : f.blitBits b cx cy i = r at ihp ihh
    obtain ⟨g, hit⟩ := r
    refine ⟨fun px py => ?_, ?_⟩
    · rw [Framebuffer.pixel_setPixel, hbit]
      split
      · next hp =>
        obtain ⟨rfl, rfl⟩ := hp
        rw [ihp, hself, Bool.xor_false]
      · exact ihp px py
    · rw [Bool.or_eq_true, Bool.and_eq_true, ihh, ihp, hself, Bool.xor_false]
      constructor
      · rintro (⟨px, py, h1, h2⟩ | ⟨h1, h2⟩)
        · refine ⟨px, py, h1, ?_⟩
          rw [hbit, if_neg]
          · exact h2
          · rintro ⟨rfl, rfl⟩
            rw [hself] at h2
            cases h2
        · exact ⟨_, cy, h2, by rw [hbit, if_pos ⟨rfl, rfl⟩]; exact h1⟩
      · rintro ⟨px, py, h1, h2⟩
        rw [hbit] at h2
        split at h2
        · next hp =>
          obtain ⟨rfl, rfl⟩ := hp
          exact .inr ⟨h2, h1⟩
        · exact .inl ⟨px, py, h1, h2⟩

/-- A whole blit (40_framebuffer.md R100). -/
theorem Framebuffer.blit_spec (f : Framebuffer) (b : Byte) (cx : Fin 64) (cy : Fin 32) :
    (∀ px py, (f.blit b cx cy).1.pixel px py = (f.pixel px py ^^ rowBit b cx cy 8 px py)) ∧
    ((f.blit b cx cy).2 = true ↔ ∃ px py, f.pixel px py = true ∧ rowBit b cx cy 8 px py = true) :=
  f.blitBits_spec b cx cy 8 (by omega)

/-- The rows of a sprite, at most 32, pixel by pixel: XOR with the sprite's bit, and a collision exactly
where a 1 bit lies on a pixel that was on (R102 to R104). -/
theorem State.drawRows_spec (a vx vy n : Nat) (hn : n ≤ 32) :
    (∀ px py, (s.drawRows a vx vy n).1.pixel px py = (s.pixel px py ^^ s.spriteBit a vx vy n px py)) ∧
    ((s.drawRows a vx vy n).2 = true ↔
      ∃ px py, s.pixel px py = true ∧ s.spriteBit a vx vy n px py = true) := by
  induction n with
  | zero => simp [State.drawRows, State.spriteBit, State.pixel]
  | succ r ih =>
    obtain ⟨ihp, ihh⟩ := ih (by omega)
    have hrow : ∀ py : Fin 32, py = Fin.ofNat 32 (vy + r) ↔ (py.val + 32 - vy % 32) % 32 = r := by
      intro py
      rw [Fin.ext_iff, Fin.val_ofNat]
      omega
    have hbit : ∀ px py, s.spriteBit a vx vy (r + 1) px py =
        if py = Fin.ofNat 32 (vy + r) then
          rowBit (s.memRead (a + r)) (Fin.ofNat 64 vx) (Fin.ofNat 32 (vy + r)) 8 px py
        else s.spriteBit a vx vy r px py := by
      intro px py
      by_cases hp : py = Fin.ofNat 32 (vy + r)
      · rw [if_pos hp]
        have hcol : (px.val + 64 - (Fin.ofNat 64 vx).val) % 64 = (px.val + 64 - vx % 64) % 64 := by
          rw [Fin.val_ofNat]
        simp only [State.spriteBit, rowBit, hcol, (hrow py).mp hp, Nat.lt_succ_self, decide_true,
          Bool.and_true]
        simp only [hp, decide_true, Bool.true_and]
      · rw [if_neg hp]
        have hne : (py.val + 32 - vy % 32) % 32 ≠ r := fun h => hp ((hrow py).mpr h)
        have : ((py.val + 32 - vy % 32) % 32 < r + 1) ↔ ((py.val + 32 - vy % 32) % 32 < r) := by omega
        simp only [State.spriteBit, this]
    have hself : ∀ px, s.spriteBit a vx vy r px (Fin.ofNat 32 (vy + r)) = false := by
      intro px
      have := (hrow (Fin.ofNat 32 (vy + r))).mp rfl
      simp only [State.spriteBit, this, Nat.lt_irrefl, decide_false, Bool.and_false, Bool.false_and]
    simp only [State.drawRows]
    generalize s.drawRows a vx vy r = p at ihp ihh
    obtain ⟨f, c⟩ := p
    have hblit := f.blit_spec (s.memRead (a + r)) (Fin.ofNat 64 vx) (Fin.ofNat 32 (vy + r))
    simp only
    generalize f.blit (s.memRead (a + r)) (Fin.ofNat 64 vx) (Fin.ofNat 32 (vy + r)) = q at hblit
    obtain ⟨g, hit⟩ := q
    obtain ⟨hbp, hbh⟩ := hblit
    refine ⟨fun px py => ?_, ?_⟩
    · rw [hbp, ihp, hbit]
      split
      · next hp => rw [hp, hself, Bool.xor_false]
      · next hp =>
        simp only [rowBit, hp, decide_false, Bool.false_and, Bool.xor_false]
    · rw [Bool.or_eq_true, ihh, hbh]
      constructor
      · rintro (⟨px, py, h1, h2⟩ | ⟨px, py, h1, h2⟩)
        · refine ⟨px, py, h1, ?_⟩
          rw [hbit, if_neg]
          · exact h2
          · rintro rfl
            rw [hself] at h2
            cases h2
        · have hp : py = Fin.ofNat 32 (vy + r) := by
            simp only [rowBit, Bool.and_eq_true, decide_eq_true_eq] at h2
            exact h2.1.1
          subst hp
          rw [ihp, hself, Bool.xor_false] at h1
          exact ⟨px, _, h1, by rw [hbit, if_pos rfl]; exact h2⟩
      · rintro ⟨px, py, h1, h2⟩
        rw [hbit] at h2
        split at h2
        · next hp =>
          subst hp
          exact .inr ⟨px, _, by rw [ihp, hself, Bool.xor_false]; exact h1, h2⟩
        · exact .inl ⟨px, py, h1, h2⟩

/-! ## The gap before a step -/

@[simp] theorem toNat_countDown (b : Byte) : (countDown b).toNat = b.toNat - 1 := by
  unfold countDown
  split
  · next h => simp [h]
  · next h =>
    have : b.toNat ≠ 0 := fun h' => h (BitVec.eq_of_toNat_eq h')
    rw [BitVec.toNat_sub_of_le (by rw [BitVec.le_def]; simp; omega)]
    rfl

/-- Any number of ticks lowers both timers toward zero and changes nothing else (10_state.md R30). -/
theorem State.ticks_eq (n : Nat) :
    s.ticks n = { s with dt := BitVec.ofNat 8 (s.dt.toNat - n), st := BitVec.ofNat 8 (s.st.toNat - n) } := by
  induction n generalizing s with
  | zero => simp [State.ticks]
  | succ n ih =>
    rw [State.ticks, ih]
    simp only [State.tick, toNat_countDown, Nat.sub_sub, Nat.add_comm 1 n]

/-- What the gap before a step can change: the timers, the key levels and the gaps left (R216). -/
theorem State.beginStep_eq :
    s.beginStep = { s with dt := s.beginStep.dt, st := s.beginStep.st, keys := s.beginStep.keys,
                           gaps := s.gaps.tail } := by
  unfold State.beginStep
  split
  · next h =>
    obtain ⟨⟩ := s
    subst h
    rfl
  · next h => simp [State.ticks_eq, State.setKeys, h]

theorem State.beginStep_of_nil (h : s.gaps = []) : s.beginStep = s := by
  simp [State.beginStep, h]

@[simp] theorem State.beginStep_pc : s.beginStep.pc = s.pc := by rw [s.beginStep_eq]
@[simp] theorem State.beginStep_mem : s.beginStep.mem = s.mem := by rw [s.beginStep_eq]
@[simp] theorem State.beginStep_regs : s.beginStep.regs = s.regs := by rw [s.beginStep_eq]
@[simp] theorem State.beginStep_index : s.beginStep.index = s.index := by rw [s.beginStep_eq]
@[simp] theorem State.beginStep_stack : s.beginStep.stack = s.stack := by rw [s.beginStep_eq]
@[simp] theorem State.beginStep_sp : s.beginStep.sp = s.sp := by rw [s.beginStep_eq]
@[simp] theorem State.beginStep_fb : s.beginStep.fb = s.fb := by rw [s.beginStep_eq]
@[simp] theorem State.beginStep_randomIn : s.beginStep.randomIn = s.randomIn := by rw [s.beginStep_eq]
@[simp] theorem State.beginStep_randomCount : s.beginStep.randomCount = s.randomCount := by rw [s.beginStep_eq]
@[simp] theorem State.beginStep_gaps : s.beginStep.gaps = s.gaps.tail := by rw [s.beginStep_eq]

@[simp] theorem State.beginStep_memRead (a : Nat) : s.beginStep.memRead a = s.memRead a := by
  simp [State.memRead]

@[simp] theorem State.beginStep_fetchWord : s.beginStep.fetchWord = s.fetchWord := by
  simp [State.fetchWord]

end Sys2Proof.Machine
end

