-- ==== Sys2Proof/Laws/PerInstr.lean ====
section
/-! SUPPORT. For each instruction: its canonical word selects the row of the opcode map that carries its
mnemonic, and the word is well formed (30_encoding.md R78, R82). -/

namespace Sys2Proof.Laws.EncodesItsRow

/-- The instruction's word selects a row of the opcode map with the instruction's mnemonic, and its
don't-care bits are zero. -/
def Statement (i : Instr) : Prop :=
  (∃ r ∈ opcodeTable, r.mnemonic = i.mnemonic ∧ r.selects (encode i) = true) ∧
  wellFormedWord (encode i) = true

/-- The statement from a row, the word's match with it, and the word's canonicity. -/
theorem of_row (i : Instr) (r : OpRow) (hr : r ∈ opcodeTable) (hm : r.mnemonic = i.mnemonic)
    (hs : encode i &&& r.mask = r.value) (hc : encode i &&& careMask (encode i) = encode i) :
    Statement i := by
  have hs : r.selects (encode i) = true := by simpa only [OpRow.selects, beq_iff_eq] using hs
  refine ⟨⟨r, hr, hm, hs⟩, ?_⟩
  simp only [wellFormedWord, legalWord, canonicalWord, hc, beq_self_eq_true, Bool.and_true,
    List.any_eq_true]
  exact ⟨r, hr, hs⟩

/-- A row of a family whose words are all read, and which no key splits. -/
theorem of_family (i : Instr) (k : Nibble) (m : String) (hm : m = i.mnemonic)
    (hr : ⟨m, encXyn k 0#4 0#4 0#4, 0xF000#16⟩ ∈ opcodeTable) (hk : opField (encode i) = k)
    (h5 : k ≠ 0x5#4) (h8 : k ≠ 0x8#4) (h9 : k ≠ 0x9#4) : Statement i :=
  of_row i _ hr hm ((and_familyMask _ _ k rfl).mpr hk)
    (and_careMask_of_family _ (hk ▸ h5) (hk ▸ h8) (hk ▸ h9))

/-- A row of family 0x8 that is no shift. -/
theorem of_alu (i : Instr) (key : Nibble) (m : String) (hm : m = i.mnemonic)
    (hr : ⟨m, encXyn 0x8#4 0#4 0#4 key, 0xF00F#16⟩ ∈ opcodeTable) (hk : opField (encode i) = 0x8#4)
    (hn : nField (encode i) = key) (h6 : key ≠ 0x6#4) (hE : key ≠ 0xE#4) : Statement i :=
  of_row i _ hr hm ((and_nibbleKeyMask _ _ 0x8#4 key rfl).mpr ⟨hk, hn⟩)
    (and_careMask_of_alu _ hk (hn ▸ h6) (hn ▸ hE))

/-- A row of families 0xE and 0xF. -/
theorem of_keyed (i : Instr) (k : Nibble) (key : Byte) (m : String) (hm : m = i.mnemonic)
    (hr : ⟨m, encXkk k 0#4 key, 0xF0FF#16⟩ ∈ opcodeTable) (hk : opField (encode i) = k)
    (hn : kkField (encode i) = key) (h5 : k ≠ 0x5#4) (h8 : k ≠ 0x8#4) (h9 : k ≠ 0x9#4) :
    Statement i :=
  of_row i _ hr hm ((and_byteKeyMask _ _ k key rfl).mpr ⟨hk, hn⟩)
    (and_careMask_of_family _ (hk ▸ h5) (hk ▸ h8) (hk ▸ h9))

/-- A two-register skip: its low nibble is not read, and is zero in the canonical word. -/
theorem and_careMask_skip (k x y : Nibble) (hk : k = 0x5#4 ∨ k = 0x9#4) :
    encXyn k x y 0#4 &&& careMask (encXyn k x y 0#4) = encXyn k x y 0#4 := by
  have hcare : careMask (encXyn k x y 0#4) = 0xFFF0#16 := by
    unfold careMask
    rcases hk with rfl | rfl
    · rw [if_pos ((and_familyMask _ 0x5000#16 0x5#4 rfl).mpr (opField_encXyn ..))]
    · split
      · rfl
      · rw [if_pos ((and_familyMask _ 0x9000#16 0x9#4 rfl).mpr (opField_encXyn ..))]
  rw [hcare, show 0xFFF0#16 = encXyn 0xF#4 0xF#4 0xF#4 0#4 from rfl, encXyn_and]
  simp only [show ∀ v : Nibble, v &&& 0xF#4 = v by decide, BitVec.and_zero]

/-- A shift: its `y` field is not read, and is zero in the canonical word. -/
theorem and_careMask_shift (x key : Nibble) (hk : key = 0x6#4 ∨ key = 0xE#4) :
    encXyn 0x8#4 x 0#4 key &&& careMask (encXyn 0x8#4 x 0#4 key) = encXyn 0x8#4 x 0#4 key := by
  have hfam (v : Word) (k : Nibble) (hv : v = encXyn k 0#4 0#4 0#4) (hne : k ≠ 0x8#4) :
      ¬ encXyn 0x8#4 x 0#4 key &&& 0xF000#16 = v := fun h =>
    hne (by simpa using ((and_familyMask _ v k hv).mp h).symm)
  have hcare : careMask (encXyn 0x8#4 x 0#4 key) = 0xFF0F#16 := by
    unfold careMask
    rw [if_neg (hfam 0x5000#16 0x5#4 rfl (by decide)), if_neg (hfam 0x9000#16 0x9#4 rfl (by decide))]
    rcases hk with rfl | rfl
    · rw [if_pos ((and_nibbleKeyMask _ 0x8006#16 0x8#4 0x6#4 rfl).mpr (by simp))]
    · split
      · rfl
      · rw [if_pos ((and_nibbleKeyMask _ 0x800E#16 0x8#4 0xE#4 rfl).mpr (by simp))]
  rw [hcare, show 0xFF0F#16 = encXyn 0xF#4 0xF#4 0#4 0xF#4 from rfl, encXyn_and]
  simp only [show ∀ v : Nibble, v &&& 0xF#4 = v by decide, BitVec.and_zero]

theorem cls : Statement .cls := by unfold Statement; decide
theorem ret : Statement .ret := by unfold Statement; decide

theorem jp (nnn : Addr) : Statement (.jp nnn) :=
  of_family _ 0x1#4 "JP" rfl (by decide) (by simp [encode]) (by decide) (by decide) (by decide)

theorem call (nnn : Addr) : Statement (.call nnn) :=
  of_family _ 0x2#4 "CALL" rfl (by decide) (by simp [encode]) (by decide) (by decide) (by decide)

theorem seImm (x : Nibble) (kk : Byte) : Statement (.seImm x kk) :=
  of_family _ 0x3#4 "SE_imm" rfl (by decide) (by simp [encode]) (by decide) (by decide) (by decide)

theorem sneImm (x : Nibble) (kk : Byte) : Statement (.sneImm x kk) :=
  of_family _ 0x4#4 "SNE_imm" rfl (by decide) (by simp [encode]) (by decide) (by decide) (by decide)

theorem ldImm (x : Nibble) (kk : Byte) : Statement (.ldImm x kk) :=
  of_family _ 0x6#4 "LD_imm" rfl (by decide) (by simp [encode]) (by decide) (by decide) (by decide)

theorem addImm (x : Nibble) (kk : Byte) : Statement (.addImm x kk) :=
  of_family _ 0x7#4 "ADD_imm" rfl (by decide) (by simp [encode]) (by decide) (by decide) (by decide)

theorem ldI (nnn : Addr) : Statement (.ldI nnn) :=
  of_family _ 0xA#4 "LD_I" rfl (by decide) (by simp [encode]) (by decide) (by decide) (by decide)

theorem jpV0 (nnn : Addr) : Statement (.jpV0 nnn) :=
  of_family _ 0xB#4 "JP_V0" rfl (by decide) (by simp [encode]) (by decide) (by decide) (by decide)

theorem rnd (x : Nibble) (kk : Byte) : Statement (.rnd x kk) :=
  of_family _ 0xC#4 "RND" rfl (by decide) (by simp [encode]) (by decide) (by decide) (by decide)

theorem drw (x y n : Nibble) : Statement (.drw x y n) :=
  of_family _ 0xD#4 "DRW" rfl (by decide) (by simp [encode]) (by decide) (by decide) (by decide)

theorem ldReg (x y : Nibble) : Statement (.ldReg x y) :=
  of_alu _ 0x0#4 "LD_reg" rfl (by decide) (by simp [encode]) (by simp [encode]) (by decide) (by decide)

theorem orReg (x y : Nibble) : Statement (.orReg x y) :=
  of_alu _ 0x1#4 "OR" rfl (by decide) (by simp [encode]) (by simp [encode]) (by decide) (by decide)

theorem andReg (x y : Nibble) : Statement (.andReg x y) :=
  of_alu _ 0x2#4 "AND" rfl (by decide) (by simp [encode]) (by simp [encode]) (by decide) (by decide)

theorem xorReg (x y : Nibble) : Statement (.xorReg x y) :=
  of_alu _ 0x3#4 "XOR" rfl (by decide) (by simp [encode]) (by simp [encode]) (by decide) (by decide)

theorem addReg (x y : Nibble) : Statement (.addReg x y) :=
  of_alu _ 0x4#4 "ADD_reg" rfl (by decide) (by simp [encode]) (by simp [encode]) (by decide) (by decide)

theorem sub (x y : Nibble) : Statement (.sub x y) :=
  of_alu _ 0x5#4 "SUB" rfl (by decide) (by simp [encode]) (by simp [encode]) (by decide) (by decide)

theorem subn (x y : Nibble) : Statement (.subn x y) :=
  of_alu _ 0x7#4 "SUBN" rfl (by decide) (by simp [encode]) (by simp [encode]) (by decide) (by decide)

theorem seReg (x y : Nibble) : Statement (.seReg x y) :=
  of_row _ ⟨"SE_reg", 0x5000#16, 0xF000#16⟩ (by decide) rfl
    ((and_familyMask _ _ 0x5#4 rfl).mpr (by simp [encode])) (and_careMask_skip 0x5#4 x y (by decide))

theorem sneReg (x y : Nibble) : Statement (.sneReg x y) :=
  of_row _ ⟨"SNE_reg", 0x9000#16, 0xF000#16⟩ (by decide) rfl
    ((and_familyMask _ _ 0x9#4 rfl).mpr (by simp [encode])) (and_careMask_skip 0x9#4 x y (by decide))

theorem shr (x : Nibble) : Statement (.shr x) :=
  of_row _ ⟨"SHR", 0x8006#16, 0xF00F#16⟩ (by decide) rfl
    ((and_nibbleKeyMask _ _ 0x8#4 0x6#4 rfl).mpr (by simp [encode])) (and_careMask_shift x 0x6#4 (by decide))

theorem shl (x : Nibble) : Statement (.shl x) :=
  of_row _ ⟨"SHL", 0x800E#16, 0xF00F#16⟩ (by decide) rfl
    ((and_nibbleKeyMask _ _ 0x8#4 0xE#4 rfl).mpr (by simp [encode])) (and_careMask_shift x 0xE#4 (by decide))

theorem skp (x : Nibble) : Statement (.skp x) :=
  of_keyed _ 0xE#4 0x9E#8 "SKP" rfl (by decide) (by simp [encode]) (by simp [encode]) (by decide)
    (by decide) (by decide)

theorem sknp (x : Nibble) : Statement (.sknp x) :=
  of_keyed _ 0xE#4 0xA1#8 "SKNP" rfl (by decide) (by simp [encode]) (by simp [encode]) (by decide)
    (by decide) (by decide)

theorem ldFromDt (x : Nibble) : Statement (.ldFromDt x) :=
  of_keyed _ 0xF#4 0x07#8 "LD_from_DT" rfl (by decide) (by simp [encode]) (by simp [encode]) (by decide)
    (by decide) (by decide)

theorem ldKey (x : Nibble) : Statement (.ldKey x) :=
  of_keyed _ 0xF#4 0x0A#8 "LD_key" rfl (by decide) (by simp [encode]) (by simp [encode]) (by decide)
    (by decide) (by decide)

theorem ldToDt (x : Nibble) : Statement (.ldToDt x) :=
  of_keyed _ 0xF#4 0x15#8 "LD_to_DT" rfl (by decide) (by simp [encode]) (by simp [encode]) (by decide)
    (by decide) (by decide)

theorem ldToSt (x : Nibble) : Statement (.ldToSt x) :=
  of_keyed _ 0xF#4 0x18#8 "LD_to_ST" rfl (by decide) (by simp [encode]) (by simp [encode]) (by decide)
    (by decide) (by decide)

theorem addI (x : Nibble) : Statement (.addI x) :=
  of_keyed _ 0xF#4 0x1E#8 "ADD_I" rfl (by decide) (by simp [encode]) (by simp [encode]) (by decide)
    (by decide) (by decide)

theorem ldFont (x : Nibble) : Statement (.ldFont x) :=
  of_keyed _ 0xF#4 0x29#8 "LD_font" rfl (by decide) (by simp [encode]) (by simp [encode]) (by decide)
    (by decide) (by decide)

theorem bcd (x : Nibble) : Statement (.bcd x) :=
  of_keyed _ 0xF#4 0x33#8 "BCD" rfl (by decide) (by simp [encode]) (by simp [encode]) (by decide)
    (by decide) (by decide)

theorem store (x : Nibble) : Statement (.store x) :=
  of_keyed _ 0xF#4 0x55#8 "STORE" rfl (by decide) (by simp [encode]) (by simp [encode]) (by decide)
    (by decide) (by decide)

theorem load (x : Nibble) : Statement (.load x) :=
  of_keyed _ 0xF#4 0x65#8 "LOAD" rfl (by decide) (by simp [encode]) (by simp [encode]) (by decide)
    (by decide) (by decide)

end Sys2Proof.Laws.EncodesItsRow
end

