-- ==== Sys2Proof/Laws/Step.lean ====
section
/-! SUPPORT. What each meaning answers, one equation an instruction, and the inversion of a step. -/

namespace Sys2Proof.Machine

variable (s : State)

/-! ## The answer of each instruction -/

theorem exec_cls : exec .cls s = .next ((s.setFb Framebuffer.blank).advance 2) := rfl
theorem exec_jp (nnn : Addr) : exec (.jp nnn) s = .next (s.setPc nnn.toNat) := rfl
theorem exec_seImm (x : Nibble) (kk : Byte) :
    exec (.seImm x kk) s = .next (s.skipIf (s.v x == kk)) := rfl
theorem exec_sneImm (x : Nibble) (kk : Byte) :
    exec (.sneImm x kk) s = .next (s.skipIf (s.v x != kk)) := rfl
theorem exec_seReg (x y : Nibble) : exec (.seReg x y) s = .next (s.skipIf (s.v x == s.v y)) := rfl
theorem exec_sneReg (x y : Nibble) : exec (.sneReg x y) s = .next (s.skipIf (s.v x != s.v y)) := rfl
theorem exec_ldImm (x : Nibble) (kk : Byte) :
    exec (.ldImm x kk) s = .next ((s.setV x kk).advance 2) := rfl
theorem exec_addImm (x : Nibble) (kk : Byte) :
    exec (.addImm x kk) s = .next ((s.setV x (BitVec.ofNat 8 ((s.v x).toNat + kk.toNat))).advance 2) := rfl
theorem exec_ldReg (x y : Nibble) : exec (.ldReg x y) s = .next ((s.setV x (s.v y)).advance 2) := rfl
theorem exec_orReg (x y : Nibble) :
    exec (.orReg x y) s = .next ((s.setV x (s.v x ||| s.v y)).advance 2) := rfl
theorem exec_andReg (x y : Nibble) :
    exec (.andReg x y) s = .next ((s.setV x (s.v x &&& s.v y)).advance 2) := rfl
theorem exec_xorReg (x y : Nibble) :
    exec (.xorReg x y) s = .next ((s.setV x (s.v x ^^^ s.v y)).advance 2) := rfl
theorem exec_addReg (x y : Nibble) :
    exec (.addReg x y) s = .next (((s.setV x (BitVec.ofNat 8 ((s.v x).toNat + (s.v y).toNat))).setFlag
      (carryFlag (s.v x) (s.v y))).advance 2) := rfl
theorem exec_sub (x y : Nibble) :
    exec (.sub x y) s = .next (((s.setV x (s.v x - s.v y)).setFlag
      (greaterFlag (s.v x) (s.v y))).advance 2) := rfl
theorem exec_shr (x : Nibble) :
    exec (.shr x) s = .next (((s.setV x (BitVec.ofNat 8 ((s.v x).toNat / 2))).setFlag
      (lowBitFlag (s.v x))).advance 2) := rfl
theorem exec_subn (x y : Nibble) :
    exec (.subn x y) s = .next (((s.setV x (s.v y - s.v x)).setFlag
      (greaterFlag (s.v y) (s.v x))).advance 2) := rfl
theorem exec_shl (x : Nibble) :
    exec (.shl x) s = .next (((s.setV x (BitVec.ofNat 8 (2 * (s.v x).toNat))).setFlag
      (highBitFlag (s.v x))).advance 2) := rfl
theorem exec_ldI (nnn : Addr) :
    exec (.ldI nnn) s = .next ((s.setIndex (nnn.setWidth 16)).advance 2) := rfl
theorem exec_jpV0 (nnn : Addr) :
    exec (.jpV0 nnn) s = .next (s.setPc (nnn.toNat + (s.v 0#4).toNat)) := rfl
theorem exec_rnd (x : Nibble) (kk : Byte) :
    exec (.rnd x kk) s = .next ((s.consumeRandom.setV x (s.randomSample &&& kk)).advance 2) := rfl
theorem exec_skp (x : Nibble) :
    exec (.skp x) s = .next (s.skipIf (s.keyDown (s.keyNumber x))) := rfl
theorem exec_sknp (x : Nibble) :
    exec (.sknp x) s = .next (s.skipIf (!s.keyDown (s.keyNumber x))) := rfl
theorem exec_ldFromDt (x : Nibble) : exec (.ldFromDt x) s = .next ((s.setV x s.dt).advance 2) := rfl
theorem exec_ldToDt (x : Nibble) : exec (.ldToDt x) s = .next ((s.setDt (s.v x)).advance 2) := rfl
theorem exec_ldToSt (x : Nibble) : exec (.ldToSt x) s = .next ((s.setSt (s.v x)).advance 2) := rfl
theorem exec_addI (x : Nibble) :
    exec (.addI x) s =
      .next ((s.setIndex (BitVec.ofNat 16 (s.index.toNat + (s.v x).toNat))).advance 2) := rfl
theorem exec_ldFont (x : Nibble) :
    exec (.ldFont x) s = .next ((s.setIndex (BitVec.ofNat 16 (5 * (s.v x).toNat))).advance 2) := rfl
theorem exec_bcd (x : Nibble) :
    exec (.bcd x) s = .next ((s.writeBytes s.index.toNat (decimalDigits (s.v x))).advance 2) := rfl
theorem exec_store (x : Nibble) :
    exec (.store x) s = .next ((s.storeRegs s.index.toNat (x.toNat + 1)).advance 2) := rfl
theorem exec_load (x : Nibble) :
    exec (.load x) s = .next ((s.loadRegs s.index.toNat (x.toNat + 1)).advance 2) := rfl

/-- DRW: the drawn framebuffer, the collision flag in `VF`, and past the instruction. -/
theorem exec_drw (x y n : Nibble) :
    exec (.drw x y n) s =
      .next (((s.setFb (s.drawRows s.index.toNat (s.v x).toNat (s.v y).toNat n.toNat).1).setFlag
        (s.drawRows s.index.toNat (s.v x).toNat (s.v y).toNat n.toNat).2).advance 2) := rfl

/-- The key wait: nothing changes without a key, else the lowest pressed key's number. -/
theorem exec_ldKey (x : Nibble) :
    exec (.ldKey x) s = match s.lowestKey with
      | none => .next s
      | some k => .next ((s.setV x (BitVec.ofNat 8 k)).advance 2) := rfl

/-- RET completes exactly when a stack entry is in use. -/
theorem exec_ret_of_pos (h : 0 < s.sp.val) :
    exec .ret s = .next (({ s with sp := ⟨s.sp.val - 1, by omega⟩ } : State).setPc
      ((s.stack[s.sp.val - 1]'(by omega)).toNat + 2)) := by
  show execRet s = _
  rw [execRet, (s.pop_eq_some _ _).mpr ⟨h, rfl, rfl⟩]

theorem exec_ret_of_zero (h : s.sp.val = 0) :
    exec .ret s = .fault (.callStackUnderflow s.pc 0x00EE#16) := by
  show execRet s = _
  rw [execRet, s.pop_eq_none.mpr h]
  rfl

/-- CALL completes exactly when fewer than 16 stack entries are in use. -/
theorem exec_call_of_lt (nnn : Addr) (h : s.sp.val < 16) :
    exec (.call nnn) s = .next (({ s with
      stack := s.stack.set s.sp.val s.pc h, sp := ⟨s.sp.val + 1, by omega⟩ } : State).setPc nnn.toNat) := by
  show execCall nnn s = _
  rw [execCall, (s.push_eq_some _ _).mpr ⟨h, rfl⟩]

theorem exec_call_of_full (nnn : Addr) (h : s.sp.val = 16) :
    exec (.call nnn) s = .fault (.callStackOverflow s.pc (encode (.call nnn))) := by
  show execCall nnn s = _
  rw [execCall, (s.push_eq_none _).mpr h]
  rfl

/-! ## What an answer says about the state it came from -/

/-- RET answered a next state: an entry was in use, and this is the state. -/
theorem exec_ret_inv (t : State) (h : exec .ret s = .next t) :
    ∃ h : 0 < s.sp.val, t = ({ s with sp := ⟨s.sp.val - 1, by omega⟩ } : State).setPc
      ((s.stack[s.sp.val - 1]'(by omega)).toNat + 2) := by
  by_cases h0 : 0 < s.sp.val
  · rw [exec_ret_of_pos s h0] at h
    exact ⟨h0, by cases h; rfl⟩
  · rw [exec_ret_of_zero s (by omega)] at h
    cases h

/-- CALL answered a next state: an entry was free, and this is the state. -/
theorem exec_call_inv (nnn : Addr) (t : State) (h : exec (.call nnn) s = .next t) :
    ∃ h : s.sp.val < 16, t = ({ s with
      stack := s.stack.set s.sp.val s.pc h, sp := ⟨s.sp.val + 1, by omega⟩ } : State).setPc nnn.toNat := by
  by_cases h0 : s.sp.val < 16
  · rw [exec_call_of_lt s nnn h0] at h
    exact ⟨h0, by cases h; rfl⟩
  · rw [exec_call_of_full s nnn (by omega)] at h
    cases h

/-- Fx0A answered a next state: it waits, or it took the lowest pressed key. -/
theorem exec_ldKey_inv (x : Nibble) (t : State) (h : exec (.ldKey x) s = .next t) :
    (s.lowestKey = none ∧ t = s) ∨
    ∃ k, s.lowestKey = some k ∧ t = (s.setV x (BitVec.ofNat 8 k)).advance 2 := by
  rw [exec_ldKey] at h
  split at h
  · next h1 => cases h; exact .inl ⟨h1, rfl⟩
  · next k h1 => cases h; exact .inr ⟨k, h1, rfl⟩

/-- An instruction that faults is RET on an empty stack or CALL on a full one (60_exceptions.md R201). -/
theorem exec_fault_inv (i : Instr) (f : Fault) (h : exec i s = .fault f) :
    (i = .ret ∧ s.sp.val = 0 ∧ f = .callStackUnderflow s.pc 0x00EE#16) ∨
    ∃ nnn, i = .call nnn ∧ s.sp.val = 16 ∧ f = .callStackOverflow s.pc (encode (.call nnn)) := by
  cases i
  case ret =>
    by_cases h0 : 0 < s.sp.val
    · rw [exec_ret_of_pos s h0] at h
      cases h
    · rw [exec_ret_of_zero s (by omega)] at h
      cases h
      exact .inl ⟨rfl, by omega, rfl⟩
  case call nnn =>
    by_cases h0 : s.sp.val < 16
    · rw [exec_call_of_lt s nnn h0] at h
      cases h
    · rw [exec_call_of_full s nnn (by omega)] at h
      cases h
      exact .inr ⟨nnn, rfl, by omega, rfl⟩
  case ldKey x =>
    rw [exec_ldKey] at h
    split at h <;> cases h
  case drw => rw [exec_drw] at h; cases h
  all_goals cases h

/-- The key a register names, by its number. -/
theorem State.keyDown_keyNumber (x : Nibble) :
    s.keyDown (s.keyNumber x) = s.keys[(s.v x).toNat % 16] := by
  simp only [State.keyDown, State.keyNumber, BitVec.extractLsb'_toNat, Nat.shiftRight_zero]

/-- The registers LOAD may write: those up to `x`. -/
theorem mem_writesRegs_load (x j : Nibble) : j ∈ writesRegs (.load x) ↔ j.toNat ≤ x.toNat := by
  simp only [writesRegs, List.mem_map, List.mem_range]
  constructor
  · rintro ⟨k, hk, rfl⟩
    rw [BitVec.toNat_ofNat]
    omega
  · intro h
    exact ⟨j.toNat, by omega, by simp⟩

/-! ## Inversion of a step -/

/-- A step that answers a next state executed the instruction the fetched word decodes to. -/
theorem step_eq_next (t : State) :
    step s = .next t ↔ ∃ i, decode s.fetchWord = .ok i ∧ exec i s.beginStep = .next t := by
  unfold step
  rw [s.beginStep_fetchWord]
  cases decode s.fetchWord <;> simp [State.raise]

/-- A step that answers a fault either decoded no instruction or executed one that faulted. -/
theorem step_eq_fault (f : Fault) :
    step s = .fault f ↔
      (∃ e, decode s.fetchWord = .error e ∧ f = .unknownOpcode s.pc s.fetchWord) ∨
      ∃ i, decode s.fetchWord = .ok i ∧ exec i s.beginStep = .fault f := by
  unfold step
  rw [s.beginStep_fetchWord]
  cases decode s.fetchWord <;> simp [State.raise, eq_comm]

/-- No instruction is refused. -/
theorem exec_ne_refused (i : Instr) (r : Refusal) : exec i s ≠ .refused r := by
  intro h
  cases i
  case ret =>
    by_cases h0 : 0 < s.sp.val
    · rw [exec_ret_of_pos s h0] at h
      cases h
    · rw [exec_ret_of_zero s (by omega)] at h
      cases h
  case call nnn =>
    by_cases h0 : s.sp.val < 16
    · rw [exec_call_of_lt s nnn h0] at h
      cases h
    · rw [exec_call_of_full s nnn (by omega)] at h
      cases h
  case ldKey x =>
    rw [exec_ldKey] at h
    split at h <;> cases h
  case drw => rw [exec_drw] at h; cases h
  all_goals cases h

/-- A run of one step more, where the first answers a next state. -/
theorem run_succ_of_next (t : State) (k : Nat) (h : step s = .next t) :
    Host.Core.run Sys2Proof.core (k + 1) s = Host.Core.run Sys2Proof.core k t := by
  have h' : Sys2Proof.core.step s = .next t := h
  simp only [Host.Core.run, h']

/-- Two bytes decode to what their word decodes to, and nothing is left. -/
theorem decodeBytes_pair (hi lo : Byte) (i : Instr) :
    decodeBytes [hi, lo] = .ok (i, []) ↔ decode (wordOfBytes hi lo) = .ok i := by
  show (decode (wordOfBytes hi lo)).map (·, []) = _ ↔ _
  cases decode (wordOfBytes hi lo) <;> simp [Except.map]

end Sys2Proof.Machine
end

