-- ==== Sys2Proof/Tests/Slice0.lean ====
section
/-! SUPPORT. Tests of one step each on small states, with expected values from 95_test_vectors.md (the
vector's name stands in the comment), the well-formedness smoke, a word of every constructor, and for
every obligation with hypotheses a witness that meets them. -/

namespace Sys2Proof.Tests

open Sys2Proof.Machine

/-! ## Helpers -/

/-- A state with some registers set. -/
def withRegs (s : State) : List (Nibble × Byte) → State
  | [] => s
  | (x, b) :: rest => withRegs (s.setV x b) rest

/-- A state with two bytes at its program counter. -/
def put (s : State) (hi lo : Byte) : State :=
  (s.memWrite s.pc.toNat hi).memWrite (s.pc.toNat + 1) lo

/-- A state with bytes from an address on. -/
def withMem (s : State) (a : Nat) (bs : List Byte) : State := s.writeBytes a bs

/-- A state with some keys pressed. -/
def withKeys (s : State) (ks : List Nat) : State :=
  s.setKeys (Vector.ofFn fun j : Fin 16 => decide (j.val ∈ ks))

/-- A state with some pixels on. -/
def withLit (s : State) : List (Fin 64 × Fin 32) → State
  | [] => s
  | (cx, cy) :: rest => withLit (s.setFb (s.fb.setPixel cx cy true)) rest

/-- What a step's next state shows, if it answers one. -/
def see {α : Type} (s : State) (f : State → α) : Option α :=
  match step s with
  | .next t => some (f t)
  | _ => none

/-- The fault a step answers, if it does. -/
def stop (s : State) : Option Fault :=
  match step s with
  | .fault f => some f
  | _ => none

/-- The reset state (R36). -/
abbrev s0 : State := State.reset

/-! ## Well-formedness: an ill-formed word for each check, refused -/

theorem test_legal_refuses_system : legalWord 0x0000#16 = false := by decide      -- EN3
theorem test_legal_refuses_alu : legalWord 0x8018#16 = false := by decide         -- AL33
theorem test_legal_refuses_keypad : legalWord 0xE19F#16 = false := by decide      -- CT30
theorem test_legal_refuses_misc : legalWord 0xF1FF#16 = false := by decide        -- MS27
theorem test_canonical_refuses_skip : canonicalWord 0x512F#16 = false := by decide    -- R80
theorem test_canonical_refuses_shift : canonicalWord 0x82A6#16 = false := by decide   -- R80
theorem test_wellFormed_refuses :
    [0x00E1#16, 0x00EF#16, 0x01E0#16, 0x9127#16, 0x82AE#16].map wellFormedWord =
      [false, false, false, false, false] := by decide   -- EN3, CT20, R80
theorem test_wellFormed_accepts :
    [0x00E0#16, 0x5120#16, 0x8206#16, 0xD12F#16].map wellFormedWord =
      [true, true, true, true] := by decide

/-! ## Decoding: a word of each constructor, written out from R78 -/

theorem test_decode_flow :
    decode 0x00E0#16 = .ok .cls ∧ decode 0x00EE#16 = .ok .ret ∧
    decode 0x1234#16 = .ok (.jp 0x234#12) ∧ decode 0x2300#16 = .ok (.call 0x300#12) ∧
    decode 0x3005#16 = .ok (.seImm 0x0#4 0x05#8) ∧ decode 0x4A06#16 = .ok (.sneImm 0xA#4 0x06#8) ∧
    decode 0x512F#16 = .ok (.seReg 0x1#4 0x2#4) ∧ decode 0x9127#16 = .ok (.sneReg 0x1#4 0x2#4) ∧
    decode 0xBFFF#16 = .ok (.jpV0 0xFFF#12) ∧ decode 0xE39E#16 = .ok (.skp 0x3#4) ∧
    decode 0xE3A1#16 = .ok (.sknp 0x3#4) := by decide
theorem test_decode_immediate :
    decode 0x6FAB#16 = .ok (.ldImm 0xF#4 0xAB#8) ∧ decode 0x7003#16 = .ok (.addImm 0x0#4 0x03#8) ∧
    decode 0xA2F0#16 = .ok (.ldI 0x2F0#12) ∧ decode 0xC10F#16 = .ok (.rnd 0x1#4 0x0F#8) ∧
    decode 0xD12F#16 = .ok (.drw 0x1#4 0x2#4 0xF#4) := by decide
theorem test_decode_alu :
    decode 0x8120#16 = .ok (.ldReg 0x1#4 0x2#4) ∧ decode 0x8121#16 = .ok (.orReg 0x1#4 0x2#4) ∧
    decode 0x8122#16 = .ok (.andReg 0x1#4 0x2#4) ∧ decode 0x8123#16 = .ok (.xorReg 0x1#4 0x2#4) ∧
    decode 0x8124#16 = .ok (.addReg 0x1#4 0x2#4) ∧ decode 0x8125#16 = .ok (.sub 0x1#4 0x2#4) ∧
    decode 0x82A6#16 = .ok (.shr 0x2#4) ∧ decode 0x8127#16 = .ok (.subn 0x1#4 0x2#4) ∧
    decode 0x82AE#16 = .ok (.shl 0x2#4) := by decide
theorem test_decode_misc :
    decode 0xF307#16 = .ok (.ldFromDt 0x3#4) ∧ decode 0xF40A#16 = .ok (.ldKey 0x4#4) ∧
    decode 0xF015#16 = .ok (.ldToDt 0x0#4) ∧ decode 0xF518#16 = .ok (.ldToSt 0x5#4) ∧
    decode 0xF11E#16 = .ok (.addI 0x1#4) ∧ decode 0xF029#16 = .ok (.ldFont 0x0#4) ∧
    decode 0xFC33#16 = .ok (.bcd 0xC#4) ∧ decode 0xF255#16 = .ok (.store 0x2#4) ∧
    decode 0xFE65#16 = .ok (.load 0xE#4) := by decide
theorem test_encode_words :
    encode (.drw 0x1#4 0x2#4 0xF#4) = 0xD12F#16 ∧ encode (.jp 0x234#12) = 0x1234#16 ∧
    encode (.shr 0x2#4) = 0x8206#16 ∧ encode (.sneReg 0x1#4 0x2#4) = 0x9120#16 ∧
    encode (.load 0xE#4) = 0xFE65#16 ∧ encode (.ldImm 0xF#4 0xAB#8) = 0x6FAB#16 := by decide
theorem test_fields :   -- S1
    opField 0xD12F#16 = 0xD#4 ∧ xField 0xD12F#16 = 0x1#4 ∧ yField 0xD12F#16 = 0x2#4 ∧
    nField 0xD12F#16 = 0xF#4 ∧ kkField 0xD12F#16 = 0x2F#8 ∧ nnnField 0xD12F#16 = 0x12F#12 := by decide
theorem test_decode_bytes :   -- R50: the byte at the lower address is the high one
    decodeBytes [0xA2#8, 0xF0#8, 0x12#8] = .ok (.ldI 0x2F0#12, [0x12#8]) ∧
    decodeBytes [0xA2#8] = .error .truncated := by decide
theorem test_decodeTableWord :
    decodeTableWord 16 0xA2F0 = some (.ldI 0x2F0#12) ∧ decodeTableWord 16 0x8018 = none := by decide
theorem test_withFetchWord : see (s0.withFetchWord 16 0xA2F0) (·.index) = some 0x02F0#16 := by decide

/-! ## Family 0x8 -/

theorem test_add_carry :   -- S10, AL1
    see (put (withRegs s0 [(0, 250), (1, 10)]) 0x80#8 0x14#8)
      (fun t => (t.v 0, t.v 1, t.v 15, t.pc)) = some (4#8, 10#8, 1#8, 0x202#16) := by decide
theorem test_add_into_flag :   -- AL6
    see (put (withRegs s0 [(15, 200), (1, 100)]) 0x8F#8 0x14#8)
      (fun t => (t.v 1, t.v 15)) = some (100#8, 1#8) := by decide
theorem test_sub_wraps :   -- AL9
    see (put (withRegs s0 [(0, 5), (1, 10), (15, 1)]) 0x80#8 0x15#8)
      (fun t => (t.v 0, t.v 15)) = some (0xFB#8, 0#8) := by decide
theorem test_sub_equal :   -- AL10
    see (put (withRegs s0 [(0, 7), (1, 7), (15, 1)]) 0x80#8 0x15#8)
      (fun t => (t.v 0, t.v 15)) = some (0#8, 0#8) := by decide
theorem test_subn :   -- AL13
    see (put (withRegs s0 [(0, 3), (1, 10)]) 0x80#8 0x17#8)
      (fun t => (t.v 0, t.v 15)) = some (7#8, 1#8) := by decide
theorem test_subn_wraps :   -- AL14
    see (put (withRegs s0 [(0, 10), (1, 3)]) 0x80#8 0x17#8)
      (fun t => (t.v 0, t.v 15)) = some (0xF9#8, 0#8) := by decide
theorem test_shr :   -- AL17
    see (put (withRegs s0 [(2, 0xFF)]) 0x82#8 0x06#8)
      (fun t => (t.v 2, t.v 15)) = some (0x7F#8, 1#8) := by decide
theorem test_shr_ignores_y :   -- AL19
    see (put (withRegs s0 [(2, 4), (10, 0xFF)]) 0x82#8 0xA6#8)
      (fun t => (t.v 2, t.v 10, t.v 15)) = some (2#8, 0xFF#8, 0#8) := by decide
theorem test_shl :   -- AL21
    see (put (withRegs s0 [(2, 0x81)]) 0x82#8 0x0E#8)
      (fun t => (t.v 2, t.v 15)) = some (2#8, 1#8) := by decide
theorem test_shl_flag_register :   -- AL25
    see (put (withRegs s0 [(15, 0x80)]) 0x8F#8 0x0E#8) (·.v 15) = some 1#8 := by decide
theorem test_or :   -- AL27
    see (put (withRegs s0 [(0, 0xF0), (1, 0x0F), (15, 1)]) 0x80#8 0x11#8)
      (fun t => (t.v 0, t.v 15)) = some (0xFF#8, 1#8) := by decide
theorem test_and :   -- AL28
    see (put (withRegs s0 [(0, 0xF0), (1, 0x3C)]) 0x80#8 0x12#8) (·.v 0) = some 0x30#8 := by decide
theorem test_xor :   -- AL29
    see (put (withRegs s0 [(0, 0xF0), (1, 0x3C)]) 0x80#8 0x13#8) (·.v 0) = some 0xCC#8 := by decide
theorem test_ld_reg :   -- AL31
    see (put (withRegs s0 [(1, 0x2A)]) 0x80#8 0x10#8) (fun t => (t.v 0, t.v 1)) =
      some (0x2A#8, 0x2A#8) := by decide

/-! ## Immediates, index, random -/

theorem test_ld_imm :   -- IM2
    see (put s0 0x6F#8 0xAB#8) (fun t => (t.v 15, t.pc)) = some (0xAB#8, 0x202#16) := by decide
theorem test_ld_imm_at_top :   -- CT23
    see (put (s0.setPc 0xFFE) 0x60#8 0x01#8) (fun t => (t.v 0, t.pc)) = some (1#8, 0#16) := by decide
theorem test_add_imm_wraps :   -- IM4
    see (put (withRegs s0 [(0, 255)]) 0x70#8 0x01#8) (fun t => (t.v 0, t.v 15)) =
      some (0#8, 0#8) := by decide
theorem test_ld_i :   -- IM5
    see (put (s0.setIndex 0xFFFF#16) 0xA2#8 0xF0#8) (·.index) = some 0x02F0#16 := by decide
theorem test_rnd_mask :   -- IM6
    see (put (s0.supplyRandom 0xB7#8) 0xC1#8 0x0F#8)
      (fun t => (t.v 1, t.randomIn, t.randomCount)) = some (0x07#8, [], 1) := by decide
theorem test_rnd_zero_mask :   -- IM7, with no byte queued: whatever the stream gives
    ∃ t, step (put (withRegs s0 [(1, 9)]) 0xC1#8 0x00#8) = .next t ∧ t.v 1 = 0#8 :=
  ⟨_, rfl, BitVec.and_zero⟩

/-! ## Control transfer -/

theorem test_jp :   -- CT2
    see (put s0 0x12#8 0x01#8) (·.pc) = some 0x201#16 := by decide
theorem test_call :   -- CT4
    see (put (s0.setPc 0x204) 0x23#8 0x00#8) (fun t => (t.pc, t.sp.val, t.stack[0])) =
      some (0x300#16, 1, 0x204#16) := by decide
theorem test_call_full :   -- CT8
    stop (put { s0 with sp := 16 } 0x23#8 0x00#8) =
      some (.callStackOverflow 0x200#16 0x2300#16) := by decide
theorem test_ret :   -- CT6
    see (put { s0 with sp := 2, stack := s0.stack.set 1 0x0FFE#16 } 0x00#8 0xEE#8)
      (fun t => (t.pc, t.sp.val)) = some (0#16, 1) := by decide
theorem test_ret_empty :   -- CT7
    stop (put s0 0x00#8 0xEE#8) = some (.callStackUnderflow 0x200#16 0x00EE#16) := by decide
theorem test_jp_v0 :   -- CT13
    see (put (withRegs s0 [(0, 4), (3, 9)]) 0xB3#8 0x00#8) (·.pc) = some 0x304#16 := by decide
theorem test_jp_v0_wraps :   -- CT12
    see (put (withRegs s0 [(0, 255)]) 0xBF#8 0xFF#8) (·.pc) = some 0x0FE#16 := by decide
theorem test_se_imm :   -- S6
    see (put (withRegs s0 [(0, 5)]) 0x30#8 0x05#8) (·.pc) = some 0x204#16 := by decide
theorem test_se_imm_at_top :   -- CT22
    see (put (withRegs (s0.setPc 0xFFE) [(0, 4)]) 0x30#8 0x05#8) (·.pc) = some 0#16 := by decide
theorem test_sne_imm :   -- S6
    see (put (withRegs s0 [(0, 5)]) 0x40#8 0x05#8) (·.pc) = some 0x202#16 ∧
    see (put (withRegs s0 [(0, 5)]) 0x40#8 0x06#8) (·.pc) = some 0x204#16 := by decide
theorem test_se_reg :   -- CT15, CT16
    see (put (withRegs s0 [(1, 7), (2, 8)]) 0x51#8 0x20#8) (·.pc) = some 0x202#16 ∧
    see (put (withRegs s0 [(1, 7), (2, 7)]) 0x51#8 0x2F#8) (·.pc) = some 0x204#16 := by decide
theorem test_sne_reg :   -- CT19, CT20
    see (put (withRegs s0 [(1, 7), (2, 7)]) 0x91#8 0x20#8) (·.pc) = some 0x202#16 ∧
    see (put (withRegs s0 [(1, 7), (2, 8)]) 0x91#8 0x27#8) (·.pc) = some 0x204#16 := by decide
theorem test_skp :   -- CT28, CT25
    see (put (withKeys (withRegs s0 [(3, 0x1A)]) [10]) 0xE3#8 0x9E#8) (·.pc) = some 0x204#16 ∧
    see (put (withRegs s0 [(3, 10)]) 0xE3#8 0x9E#8) (·.pc) = some 0x202#16 := by decide
theorem test_sknp :   -- CT29, CT27
    see (put (withKeys (withRegs s0 [(3, 0xFF)]) [15]) 0xE3#8 0xA1#8) (·.pc) = some 0x202#16 ∧
    see (put (withRegs s0 [(3, 10)]) 0xE3#8 0xA1#8) (·.pc) = some 0x204#16 := by decide

/-! ## Family 0xF -/

theorem test_ld_from_dt :   -- MS1
    see (put (s0.setDt 60#8) 0xF3#8 0x07#8) (fun t => (t.v 3, t.dt)) = some (0x3C#8, 60#8) := by decide
theorem test_ld_to_dt :   -- MS2
    see (put (withRegs s0 [(0, 60)]) 0xF0#8 0x15#8) (fun t => (t.dt, t.st)) = some (60#8, 0#8) := by decide
theorem test_ld_to_st :   -- MS3
    see (put (withRegs s0 [(5, 2)]) 0xF5#8 0x18#8) (fun t => (t.dt, t.st)) = some (0#8, 2#8) := by decide
theorem test_ld_key :   -- MS6
    see (put (withKeys s0 [3, 12]) 0xF4#8 0x0A#8) (fun t => (t.v 4, t.pc)) =
      some (3#8, 0x202#16) := by decide
theorem test_ld_key_waits :   -- MS5
    see (put (withRegs (s0.setPc 0x210) [(4, 0xEE)]) 0xF4#8 0x0A#8) (fun t => (t.v 4, t.pc)) =
      some (0xEE#8, 0x210#16) ∧
    report (put (withRegs (s0.setPc 0x210) [(4, 0xEE)]) 0xF4#8 0x0A#8) =
      some ⟨.awaitingInput, false⟩ := by decide
theorem test_add_i :   -- MS9
    see (put (withRegs (s0.setIndex 0x0FFE#16) [(1, 4)]) 0xF1#8 0x1E#8)
      (fun t => (t.index, t.v 15)) = some (0x1002#16, 0#8) := by decide
theorem test_add_i_wraps :   -- MS11
    see (put (withRegs (s0.setIndex 0xFF01#16) [(1, 255)]) 0xF1#8 0x1E#8) (·.index) =
      some 0#16 := by decide
theorem test_ld_font :   -- MS13
    see (put (withRegs s0 [(0, 0x1A)]) 0xF0#8 0x29#8) (·.index) = some 0x0082#16 := by decide
theorem test_bcd :   -- MS16
    see (put (withRegs (s0.setIndex 0x300#16) [(0, 254)]) 0xF0#8 0x33#8)
      (fun t => ([0x300, 0x301, 0x302].map t.memRead, t.index)) =
      some ([2#8, 5#8, 4#8], 0x300#16) := by decide
theorem test_bcd_wraps :   -- MS21
    see (put (withRegs (s0.setIndex 0x1FFE#16) [(0, 123)]) 0xF0#8 0x33#8)
      (fun t => ([0xFFE, 0xFFF, 0x000].map t.mem.read, t.index)) =
      some ([1#8, 2#8, 3#8], 0x1FFE#16) := by decide
theorem test_store :   -- MS22
    see (put (withMem (withRegs (s0.setIndex 0x400#16) [(0, 1), (1, 2), (2, 3), (3, 4)]) 0x403 [0x77#8])
      0xF2#8 0x55#8) (fun t => ([0x400, 0x401, 0x402, 0x403].map t.memRead, t.index)) =
      some ([1#8, 2#8, 3#8, 0x77#8], 0x400#16) := by decide
theorem test_store_wraps :   -- MS24
    see (put (withMem (withRegs (s0.setIndex 0xFFE#16) [(0, 1), (1, 2), (2, 3)]) 1 [0x55#8])
      0xF2#8 0x55#8) (fun t => [0xFFE, 0xFFF, 0x000, 0x001].map t.mem.read) =
      some [1#8, 2#8, 3#8, 0x55#8] := by decide
theorem test_load :   -- MS25
    see (put (withMem (withRegs (s0.setIndex 0x400#16) [(3, 0x33)]) 0x400 [9#8, 8#8, 7#8, 6#8])
      0xF2#8 0x65#8) (fun t => ([0, 1, 2, 3].map t.v, t.index)) =
      some ([9#8, 8#8, 7#8, 0x33#8], 0x400#16) := by decide
theorem test_load_one :   -- MS26
    see (put (withMem (withRegs (s0.setIndex 0x400#16) [(1, 0x11)]) 0x400 [9#8, 8#8])
      0xF0#8 0x65#8) (fun t => (t.v 0, t.v 1)) = some (9#8, 0x11#8) := by decide

/-! ## Framebuffer -/

theorem test_cls :   -- FB1
    see (put (withLit s0 [(3, 4), (63, 31)]) 0x00#8 0xE0#8)
      (fun t => (t.pixel 3 4, t.pixel 63 31, t.pc)) = some (false, false, 0x202#16) := by decide
theorem test_drw_overlap :   -- FB4
    see (put (withMem (withRegs (withLit (s0.setIndex 0x300#16) [(3, 3)]) [(1, 2), (2, 3)]) 0x300 [0xC0#8])
      0xD1#8 0x21#8) (fun t => (t.pixel 2 3, t.pixel 3 3, t.v 15)) = some (true, false, 1#8) := by decide
theorem test_drw_wraps :   -- FB10
    see (put (withMem (withRegs (s0.setIndex 0x300#16) [(1, 255), (2, 255), (15, 1)]) 0x300 [0x81#8])
      0xD1#8 0x21#8) (fun t => (t.pixel 63 31, t.pixel 6 31, t.pixel 0 31, t.v 15)) =
      some (true, true, false, 0#8) := by decide

/-! ## Faults, reports, the environment -/

theorem test_unknown_alu :   -- AL33
    stop (put (withRegs s0 [(0, 1), (1, 2)]) 0x80#8 0x18#8) =
      some (.unknownOpcode 0x200#16 0x8018#16) := by decide
theorem test_unknown_misc : stop (put s0 0xF1#8 0xFF#8) =
    some (.unknownOpcode 0x200#16 0xF1FF#16) := by decide   -- MS27
theorem test_nothing_loaded : stop s0 = some (.unknownOpcode 0x200#16 0#16) := by decide   -- CT32
theorem test_report_cls :   -- FB1
    report (put s0 0x00#8 0xE0#8) = some ⟨.ok, true⟩ := by decide
theorem test_report_fault :   -- CT31
    report (put s0 0x01#8 0x23#8) = some ⟨.fault (.unknownOpcode 0x200#16 0x0123#16), false⟩ := by decide
theorem test_gap_ticks :   -- P4, step 4: two ticks before the step
    see { put (s0.setDt 5#8) 0xF1#8 0x07#8 with gaps := [⟨2, s0.keys⟩] }
      (fun t => (t.v 1, t.dt, t.st, t.gaps)) = some (3#8, 3#8, 0#8, []) := by decide
theorem test_gap_keys :   -- P4, step 2: the keys sampled at the start of the step
    see { put s0 0xF0#8 0x0A#8 with gaps := [⟨0, (withKeys s0 [5, 9]).keys⟩] }
      (fun t => (t.v 0, t.pc)) = some (5#8, 0x202#16) := by decide
theorem test_load_glyph :   -- R56, MS12: the glyph of digit 0xA begins at cell 50
    (s0.loadGlyphs (List.replicate 50 0#8 ++ [0xF0#8, 0x90#8])).mem.read 50 = 0xF0#8 := by decide
theorem test_write_keeps_canonical :
    (s0.memWrite 5 1#8).mem = [(5, 1#8)] ∧ ((s0.memWrite 5 1#8).memWrite 4101 0#8).mem = [] := by decide

/-! ## Witnesses: states and operands that meet the hypotheses of the obligations -/

/-- The answer is a next state. -/
def completes : Answer → Bool
  | .next _ => true
  | _ => false

/-- A state with one call open, two registers, memory, a lit pixel and a pressed key. -/
abbrev s1 : State :=
  withKeys (withLit { withMem (withRegs (s0.setIndex 0xFFF#16) [(0, 5), (1, 7)]) 0xFFF [0xC0#8, 0x81#8]
    with sp := 1, stack := s0.stack.set 0 0x0FFE#16 } [(5, 7)]) [5]

/-- One instruction of each constructor. -/
abbrev sampleInstrs : List Instr :=
  [.cls, .ret, .jp 0xFFF#12, .call 0xFFF#12, .seImm 0 5, .sneImm 0 5, .seReg 0 1, .ldImm 15 1,
   .addImm 0 255] ++
  [.ldReg 15 0, .orReg 0 1, .andReg 0 1, .xorReg 0 0, .addReg 15 0, .sub 0 15, .shr 15, .subn 0 1,
   .shl 0] ++
  [.sneReg 0 1, .ldI 0xFFF#12, .jpV0 0xFFF#12, .rnd 0 15, .drw 0 1 2, .drw 15 15 0, .skp 0, .sknp 0] ++
  [.ldFromDt 15, .ldKey 0, .ldToDt 0, .ldToSt 0, .addI 0, .ldFont 0, .bcd 0, .store 15, .load 15]

theorem witness_every_instruction_completes :
    sampleInstrs.all (fun i => completes (exec i s1)) = true ∧
    (sampleInstrs.map Instr.mnemonic).eraseDups.length = 34 := by decide
theorem witness_InstructionFrames : ∃ t, exec (.store 15) s1 = .next t := ⟨_, rfl⟩
theorem witness_MemoryWriters : (∃ t, exec (.bcd 0) s1 = .next t) ∧
    (∀ k < storesBytes (.bcd 0), 2 % 4096 ≠ (s1.index.toNat + k) % 4096) :=
  ⟨⟨_, rfl⟩, by decide⟩
theorem witness_FlagRegisterWriters :
    (∃ t, exec (.addReg 15 0) s1 = .next t) ∧ (∃ t, exec (.sub 0 1) s1 = .next t) ∧
    (∃ t, exec (.subn 0 1) s1 = .next t) ∧ (∃ t, exec (.shr 15) s1 = .next t) ∧
    (∃ t, exec (.shl 0) s1 = .next t) ∧ (∃ t, exec (.drw 0 1 2) s1 = .next t) ∧
    (∃ t, exec (.ldImm 14 1) s1 = .next t) ∧ (14 : Nibble) ≠ flagReg ∧
    (∃ t, exec .cls s1 = .next t) :=
  ⟨⟨_, rfl⟩, ⟨_, rfl⟩, ⟨_, rfl⟩, ⟨_, rfl⟩, ⟨_, rfl⟩, ⟨_, rfl⟩, ⟨_, rfl⟩, by decide, ⟨_, rfl⟩⟩
theorem witness_ProgramCounterPolicy :
    (∃ t, exec (.jp 0xFFF#12) s1 = .next t) ∧ (∃ t, exec (.jpV0 0xFFF#12) s1 = .next t) ∧
    (∃ t, exec .ret s1 = .next t) ∧ (∃ t, exec (.call 0) { s1 with sp := 15 } = .next t) ∧
    (∃ t, exec (.seImm 0 5) s1 = .next t) ∧ (∃ t, exec (.sneImm 0 5) s1 = .next t) ∧
    (∃ t, exec (.seReg 0 1) s1 = .next t) ∧ (∃ t, exec (.sneReg 0 1) s1 = .next t) ∧
    (∃ t, exec (.skp 0) s1 = .next t) ∧ (∃ t, exec (.sknp 1) s1 = .next t) ∧
    (∃ t, exec (.ldKey 0) s1 = .next t) ∧ (∃ t, exec (.ldKey 0) s0 = .next t) ∧
    (∃ t, exec (.bcd 0) s1 = .next t) :=
  ⟨⟨_, rfl⟩, ⟨_, rfl⟩, ⟨_, rfl⟩, ⟨_, rfl⟩, ⟨_, rfl⟩, ⟨_, rfl⟩, ⟨_, rfl⟩, ⟨_, rfl⟩, ⟨_, rfl⟩, ⟨_, rfl⟩,
    ⟨_, rfl⟩, ⟨_, rfl⟩, ⟨_, rfl⟩⟩

theorem witness_EncodeUndoesDecode :
    decode 0x512F#16 = .ok (.seReg 1 2) ∧ decode 0x82AE#16 = .ok (.shl 2) ∧
    decode 0x00E0#16 = .ok .cls := by decide
theorem witness_DecodeFollowsOpcodeMap :
    ⟨"SHL", 0x800E#16, 0xF00F#16⟩ ∈ opcodeTable ∧
    OpRow.selects ⟨"SHL", 0x800E#16, 0xF00F#16⟩ 0x82AE#16 = true ∧
    decode 0xFFFF#16 = .error .unknownMiscKey ∧ decode 0xFF65#16 = .ok (.load 15) := by decide
theorem witness_NoWordSelectsTwoRows :
    ⟨"CLS", 0x00E0#16, 0xFFFF#16⟩ ∈ opcodeTable ∧
    OpRow.selects ⟨"CLS", 0x00E0#16, 0xFFFF#16⟩ 0x00E0#16 = true := by decide
theorem witness_IllegalWordsByClass :
    decode 0x0FFF#16 = .error .unknownSystemWord ∧ decode 0x800F#16 = .error .unknownAluKey ∧
    decode 0xE09F#16 = .error .unknownKeypadKey ∧ decode 0xF000#16 = .error .unknownMiscKey := by decide
theorem witness_FamilyEightKeys :
    opField 0x8000#16 = 0x8#4 ∧ opField 0x8FFF#16 = 0x8#4 ∧ nField 0x8FFF#16 = 0xF#4 ∧
    nField 0x800E#16 = 0xE#4 := by decide
theorem witness_StepRunsDecodedInstruction :
    decodeBytes [(put s0 0xA2#8 0xF0#8).memRead 512, (put s0 0xA2#8 0xF0#8).memRead 513] =
      .ok (.ldI 0x2F0#12, []) ∧ (put s0 0xA2#8 0xF0#8).gaps = [] ∧
    decodeBytes [(put (s0.setPc 4095) 0xA2#8 0xF0#8).memRead 4095,
      (put (s0.setPc 4095) 0xA2#8 0xF0#8).memRead 4096] = .ok (.ldI 0x2F0#12, []) ∧
    ({ put s0 0xA2#8 0xF0#8 with gaps := [⟨2, s0.keys⟩] } : State).gaps = ⟨2, s0.keys⟩ :: [] := by decide
theorem witness_FetchIsBigEndian :
    (s0.setPc 4095).pc.toNat = 4095 ∧ (s0.setPc 0).pc.toNat = 0 := by decide
theorem witness_IllegalWordRaisesUnknownOpcode :
    legalWord (put s0 0x80#8 0x18#8).fetchWord = false ∧
    step (put s0 0x80#8 0x18#8) = .fault (.unknownOpcode 512#16 0x8018#16) := ⟨by decide, rfl⟩
theorem witness_OnlyThreeFaults :
    step s0 = .fault (.unknownOpcode 512#16 0#16) ∧
    step (put s0 0x00#8 0xEE#8) = .fault (.callStackUnderflow 512#16 0x00EE#16) ∧
    step (put { s0 with sp := 16 } 0x23#8 0x00#8) = .fault (.callStackOverflow 512#16 0x2300#16) :=
  ⟨rfl, rfl, rfl⟩

theorem witness_StepKeepsInvariant :
    s1.Inv ∧ (∃ t, step (s1.withFetchWord 16 0x00EE) = .next t) ∧ (s1.withFetchWord 16 0x00EE).Inv ∧
    State.Inv { s0 with sp := 16, pc := 4095#16 } := ⟨by decide, ⟨_, rfl⟩, by decide, by decide⟩
theorem witness_ResetHasInvariant :
    Memory.wf [] ∧ Memory.wf [(0, 1#8), (512, 0x12#8), (4095, 0xFF#8)] ∧
    ¬ Memory.wf [(5, 0#8)] ∧ ¬ Memory.wf [(4096, 1#8)] ∧ ¬ Memory.wf [(5, 1#8), (5, 2#8)] := by decide
theorem witness_EnvironmentKeepsInvariant :
    s1.Inv ∧ (∃ t, s1.loadImage [0x12#8, 0x00#8] = some t) ∧
    (s1.loadGlyphs [0xF0#8, 0x90#8]).mem.read 1 = 0x90#8 := ⟨by decide, ⟨_, rfl⟩, by decide⟩

theorem witness_ClearScreen : (put s1 0x00#8 0xE0#8).fetchWord = 0x00E0#16 := by decide
theorem witness_DrawTwiceRestores : (0x0#4) ≠ flagReg ∧ (0xE#4) ≠ flagReg := by decide
theorem witness_DisplayDirtyReport :
    report (put s0 0xD0#8 0x00#8) = some ⟨.ok, true⟩ ∧ report (put s0 0x60#8 0x00#8) = some ⟨.ok, false⟩ ∧
    report s0 = some ⟨.fault (.unknownOpcode 512#16 0#16), false⟩ := by decide
theorem witness_decode_masks :   -- the mask hypotheses of JumpGoesToAddress, ComputedJump, RegisterSkips,
    -- LoadImmediate, AddImmediateWithoutFlag, LoadIndex, ShiftRight and ShiftLeft, at both ends
    [0x1000#16, 0x1FFF#16].map (· &&& 0xF000#16) = [0x1000#16, 0x1000#16] ∧
    [0xB000#16, 0xBFFF#16].map (· &&& 0xF000#16) = [0xB000#16, 0xB000#16] ∧
    [0x5000#16, 0x5FFF#16].map (· &&& 0xF000#16) = [0x5000#16, 0x5000#16] ∧
    [0x9000#16, 0x9FFF#16].map (· &&& 0xF000#16) = [0x9000#16, 0x9000#16] ∧
    [0x6000#16, 0x6FFF#16].map (· &&& 0xF000#16) = [0x6000#16, 0x6000#16] ∧
    [0x7000#16, 0x7FFF#16].map (· &&& 0xF000#16) = [0x7000#16, 0x7000#16] ∧
    [0xA000#16, 0xAFFF#16].map (· &&& 0xF000#16) = [0xA000#16, 0xA000#16] ∧
    [0x8006#16, 0x8FF6#16].map (· &&& 0xF00F#16) = [0x8006#16, 0x8006#16] ∧
    [0x800E#16, 0x8FFE#16].map (· &&& 0xF00F#16) = [0x800E#16, 0x800E#16] := by decide

theorem witness_CallPushesItsAddress :
    s0.sp.val < 16 ∧ ({ s0 with sp := 15 } : State).sp.val < 16 ∧
    ({ s0 with sp := 16 } : State).sp.val = 16 := by decide
theorem witness_ReturnGoesPastTheCall :
    0 < s1.sp.val ∧ 0 < ({ s0 with sp := 16 } : State).sp.val := by decide
theorem witness_ReturnOnEmptyStackFaults :
    s0.sp.val = 0 ∧ (put s0 0x00#8 0xEE#8).fetchWord = 0x00EE#16 ∧
    (put s0 0x00#8 0xEE#8).sp.val = 0 := by decide
theorem witness_CallThenReturn :
    s0.sp.val < 16 ∧ s1.sp.val < 16 ∧ ({ s0 with sp := 15 } : State).sp.val < 16 := by decide
theorem witness_RandomByteAndMask :
    (s0.supplyRandom 0xB7#8).randomIn = [0xB7#8] ∧ s0.randomIn = [] := by decide
theorem witness_flag_destination :   -- AddWithCarry, SubtractWithStrictFlag, ShiftRight, ShiftLeft
    (0x0#4) ≠ flagReg ∧ (0xE#4) ≠ flagReg ∧ (0xF#4) = flagReg := by decide
theorem witness_KeyWait :
    (∀ k : Fin 16, s0.keys[k.val] = false) ∧
    (withKeys s0 [15]).keys[15] = true ∧ (∀ j : Fin 16, j < 15 → (withKeys s0 [15]).keys[j.val] = false) ∧
    (withKeys s0 [0, 9]).keys[0] = true ∧ (∀ j : Fin 16, j < 0 → (withKeys s0 [0, 9]).keys[j.val] = false) ∧
    decode (put s0 0xF4#8 0x0A#8).fetchWord = .ok (.ldKey 4) := by decide
theorem witness_stored_and_kept_addresses :   -- DecimalDigitsStored, RegistersStored
    (∀ k < 3, 2 % 4096 ≠ (s1.index.toNat + k) % 4096) ∧
    (∀ k < 3, 4094 % 4096 ≠ (s1.index.toNat + k) % 4096) ∧
    (∀ k ≤ (0xF#4).toNat, 15 % 4096 ≠ (s1.index.toNat + k) % 4096) := by decide

theorem witness_StoredWordIsFetchedNext :
    ((s0.setPc 4094).setIndex 0#16).index.toNat =
      (((s0.setPc 4094).setIndex 0#16).pc.toNat + 2) % 4096 ∧
    (s0.setIndex 0x202#16).index.toNat = ((s0.setIndex 0x202#16).pc.toNat + 2) % 4096 ∧ 1 ≤ (0x1#4).toNat := by decide

theorem witness_StaleStackUnobservable :
    State.dropStale { s1 with stack := s1.stack.set 1 0xFFFF#16 } = s1.dropStale ∧
    ({ s1 with stack := s1.stack.set 1 0xFFFF#16 } : State) ≠ s1 := by decide
theorem witness_CanonicalMemoriesEqual :
    (s1.mem).wf ∧ (((s1.memWrite 7 1#8).memWrite 7 0#8).mem).wf ∧
    ∀ a < 4096, ((s1.memWrite 7 1#8).memWrite 7 0#8).mem.read a = s1.mem.read a := by
  have h : ((s1.memWrite 7 1#8).memWrite 7 0#8).mem = s1.mem := by decide
  rw [h]
  exact ⟨by decide, by decide, fun _ _ => rfl⟩
theorem witness_ImageLoadedAtEntryPoint :
    (List.replicate 3584 1#8).length ≤ 3584 ∧ 3584 < (List.replicate 3585 1#8).length ∧
    (List.replicate 512 1#8).length ≤ 512 := by
  simp only [List.length_replicate]
  decide
theorem witness_StepResultReport :
    (∃ x, decode (put s0 0xF4#8 0x0A#8).fetchWord = .ok (.ldKey x)) ∧
    (∀ k : Fin 16, (put s0 0xF4#8 0x0A#8).beginStep.keys[k.val] = false) := ⟨⟨4, by decide⟩, by decide⟩
theorem witness_StoppedProgramStays :
    State.Stopped { put s0 0x12#8 0x00#8 with dt := 9#8, gaps := [⟨2, s1.keys⟩] } :=
  ⟨0x200#12, by decide, by decide⟩
theorem witness_KeyWaitEndsWithAPress :
    let s : State := { put s0 0xF4#8 0x0A#8 with gaps := [⟨1, s0.keys⟩] ++ [⟨0, s1.keys⟩] }
    decode s.fetchWord = .ok (.ldKey 4) ∧ s.gaps = [⟨1, s0.keys⟩] ++ [⟨0, s1.keys⟩] ∧
    (∀ h ∈ [(⟨1, s0.keys⟩ : Gap)], ∀ j : Fin 16, h.keys[j.val] = false) ∧
    s1.keys[5] = true ∧ ∀ j : Fin 16, j < 5 → s1.keys[j.val] = false := by decide

end Sys2Proof.Tests
end

section
/-! The frame of every instruction, field by field, and what every step keeps: the obligations
InstructionFrames and StepKeepsInvariant. -/

namespace Sys2Proof.Machine

/-! ## The frame of an instruction -/

/-- The frame `SameBut` (10_state.md R38) with the fields themselves compared: memory as a list and the
framebuffer as a vector, where `SameBut` compares their bytes and pixels. The canonical form of the
memory is a property of the list, so the invariant needs this form. -/
structure FieldsBut (xs : List Nibble) (ps : List Part) (s t : State) : Prop where
  v : ∀ j, j ∉ xs → t.v j = s.v j
  index : .index ∉ ps → t.index = s.index
  mem : .mem ∉ ps → t.mem = s.mem
  stack : .stack ∉ ps → t.sp = s.sp ∧ t.stack = s.stack
  dt : .dt ∉ ps → t.dt = s.dt
  st : .st ∉ ps → t.st = s.st
  fb : .fb ∉ ps → t.fb = s.fb
  random : .random ∉ ps → t.randomIn = s.randomIn ∧ t.randomCount = s.randomCount
  keys : t.keys = s.keys
  gaps : t.gaps = s.gaps

namespace FieldsBut

variable {xs : List Nibble} {ps : List Part} {s t : State}

theorem sameBut (h : FieldsBut xs ps s t) : SameBut xs ps s t := by
  refine ⟨h.v, h.index, fun hp a => ?_, h.stack, h.dt, h.st, fun hp cx cy => ?_, h.random, h.keys, h.gaps⟩
  · rw [State.memRead, State.memRead, h.mem hp]
  · rw [State.pixel, State.pixel, h.fb hp]

/-! One rule for each operation: what was the same so far still is after it, if the operation's own
target is among the parts that may differ. -/

theorem refl (xs : List Nibble) (ps : List Part) (s : State) : FieldsBut xs ps s s := by
  constructor <;> simp

theorem setPc (h : FieldsBut xs ps s t) (n : Nat) : FieldsBut xs ps s (t.setPc n) := { h with }

theorem advance (h : FieldsBut xs ps s t) (k : Nat) : FieldsBut xs ps s (t.advance k) := h.setPc _

theorem skipIf (h : FieldsBut xs ps s t) (c : Bool) : FieldsBut xs ps s (t.skipIf c) := h.setPc _

theorem setV (h : FieldsBut xs ps s t) (x : Nibble) (b : Byte) (hx : x ∈ xs) :
    FieldsBut xs ps s (t.setV x b) :=
  { h with
    v := fun j hj => by
      have hne : j ≠ x := fun he => hj (he.symm ▸ hx)
      rw [State.v_setV, if_neg hne, h.v j hj] }

theorem setFlag (h : FieldsBut xs ps s t) (c : Bool) (hx : flagReg ∈ xs) :
    FieldsBut xs ps s (t.setFlag c) := h.setV _ _ hx

theorem setIndex (h : FieldsBut xs ps s t) (a : Word) (hp : .index ∈ ps) :
    FieldsBut xs ps s (t.setIndex a) := { h with index := absurd hp }

theorem setDt (h : FieldsBut xs ps s t) (b : Byte) (hp : .dt ∈ ps) :
    FieldsBut xs ps s (t.setDt b) := { h with dt := absurd hp }

theorem setSt (h : FieldsBut xs ps s t) (b : Byte) (hp : .st ∈ ps) :
    FieldsBut xs ps s (t.setSt b) := { h with st := absurd hp }

theorem setFb (h : FieldsBut xs ps s t) (f : Framebuffer) (hp : .fb ∈ ps) :
    FieldsBut xs ps s (t.setFb f) := { h with fb := absurd hp }

theorem consumeRandom (h : FieldsBut xs ps s t) (hp : .random ∈ ps) :
    FieldsBut xs ps s t.consumeRandom := { h with random := absurd hp }

theorem setMem (h : FieldsBut xs ps s t) (m : Memory) (hp : .mem ∈ ps) :
    FieldsBut xs ps s { t with mem := m } := { h with mem := absurd hp }

theorem setStack (h : FieldsBut xs ps s t) (σ : Vector Word 16) (sp : Fin 17) (hp : .stack ∈ ps) :
    FieldsBut xs ps s { t with stack := σ, sp := sp } := { h with stack := absurd hp }

theorem writeBytes (h : FieldsBut xs ps s t) (a : Nat) (bs : List Byte) (hp : .mem ∈ ps) :
    FieldsBut xs ps s (t.writeBytes a bs) := t.writeBytes_eq bs a ▸ h.setMem _ hp

theorem storeRegs (h : FieldsBut xs ps s t) (a n : Nat) (hp : .mem ∈ ps) :
    FieldsBut xs ps s (t.storeRegs a n) := t.storeRegs_eq a n ▸ h.setMem _ hp

theorem loadRegs (h : FieldsBut xs ps s t) (a n : Nat) (hx : ∀ k < n, BitVec.ofNat 4 k ∈ xs) :
    FieldsBut xs ps s (t.loadRegs a n) := by
  induction n with
  | zero => exact h
  | succ n ih => exact (ih fun k hk => hx k (by omega)).setV _ _ (hx n (by omega))

end FieldsBut

/-- Every instruction that completes keeps all but its own registers and parts (10_state.md R38). -/
theorem exec_fieldsBut {i : Instr} {s t : State} (h : exec i s = .next t) :
    FieldsBut (writesRegs i) (writesParts i) s t := by
  have same := FieldsBut.refl (writesRegs i) (writesParts i) s
  cases i
  case ret =>
    obtain ⟨hsp, rfl⟩ := exec_ret_inv s t h
    exact (same.setStack _ _ (by decide)).setPc _
  case call nnn =>
    obtain ⟨hsp, rfl⟩ := exec_call_inv s nnn t h
    exact (same.setStack _ _ (by simp [writesParts])).setPc _
  case ldKey x =>
    obtain ⟨-, rfl⟩ | ⟨k, -, rfl⟩ := exec_ldKey_inv s x t h
    · exact same
    · exact (same.setV _ _ (by simp [writesRegs])).advance 2
  all_goals cases h
  case jp | jpV0 => exact same.setPc _
  case seImm | sneImm | seReg | sneReg | skp | sknp => exact same.skipIf _
  case ldImm | addImm | ldReg | orReg | andReg | xorReg | ldFromDt =>
    exact (same.setV _ _ (by simp [writesRegs])).advance 2
  case addReg | sub | shr | subn | shl =>
    exact ((same.setV _ _ (by simp [writesRegs])).setFlag _ (by simp [writesRegs])).advance 2
  case ldI | addI | ldFont => exact (same.setIndex _ (by simp [writesParts])).advance 2
  case ldToDt => exact (same.setDt _ (by simp [writesParts])).advance 2
  case ldToSt => exact (same.setSt _ (by simp [writesParts])).advance 2
  case cls => exact (same.setFb _ (by decide)).advance 2
  case drw =>
    exact ((same.setFb _ (by simp [writesParts])).setFlag _ (by simp [writesRegs])).advance 2
  case rnd =>
    exact ((same.consumeRandom (by simp [writesParts])).setV _ _ (by simp [writesRegs])).advance 2
  case bcd => exact (same.writeBytes _ _ (by simp [writesParts])).advance 2
  case store => exact (same.storeRegs _ _ (by simp [writesParts])).advance 2
  case load x =>
    refine (same.loadRegs _ _ fun k hk => ?_).advance 2
    exact List.mem_map_of_mem (List.mem_range.mpr hk)

theorem mem_mem_writesParts (i : Instr) :
    .mem ∈ writesParts i ↔ (∃ x, i = .bcd x) ∨ ∃ x, i = .store x := by
  cases i <;> simp [writesParts]

theorem stack_mem_writesParts (i : Instr) :
    .stack ∈ writesParts i ↔ i = .ret ∨ ∃ nnn, i = .call nnn := by
  cases i <;> simp [writesParts]

theorem st_mem_writesParts (i : Instr) : .st ∈ writesParts i ↔ ∃ x, i = .ldToSt x := by
  cases i <;> simp [writesParts]

/-! ## The invariant -/

/-- An instruction that completes waits for a key and changes nothing, or ends by writing the program
counter, reduced mod 4096 (10_state.md R26). -/
theorem exec_eq_or_setPc {i : Instr} {s t : State} (h : exec i s = .next t) :
    t = s ∨ ∃ u n, t = State.setPc u n := by
  cases i
  case ret =>
    obtain ⟨hsp, rfl⟩ := exec_ret_inv s t h
    exact .inr ⟨_, _, rfl⟩
  case call nnn =>
    obtain ⟨hsp, rfl⟩ := exec_call_inv s nnn t h
    exact .inr ⟨_, _, rfl⟩
  case ldKey x =>
    obtain ⟨-, rfl⟩ | ⟨k, -, rfl⟩ := exec_ldKey_inv s x t h
    · exact .inl rfl
    · exact .inr ⟨_, _, rfl⟩
  all_goals
    cases h
    exact .inr ⟨_, _, rfl⟩

theorem exec_pc_lt {i : Instr} {s t : State} (h : exec i s = .next t) (hpc : s.pc.toNat < 4096) :
    t.pc.toNat < 4096 := by
  obtain rfl | ⟨u, n, rfl⟩ := exec_eq_or_setPc h
  · exact hpc
  · rw [State.toNat_setPc]
    exact Nat.mod_lt _ (by decide)

theorem exec_mem_wf {i : Instr} {s t : State} (h : exec i s = .next t) (hm : s.mem.wf) : t.mem.wf := by
  by_cases hp : .mem ∈ writesParts i
  · obtain ⟨x, rfl⟩ | ⟨x, rfl⟩ := (mem_mem_writesParts i).mp hp
    · cases h
      exact s.wf_writeBytes _ _ hm
    · cases h
      exact s.wf_storeRegs _ _ hm
  · rwa [(exec_fieldsBut h).mem hp]

/-- Only CALL adds a valid stack entry, and the entry is the program counter. -/
theorem exec_stack_lt {i : Instr} {s t : State} (h : exec i s = .next t) (hpc : s.pc.toNat < 4096)
    (hs : ∀ j : Fin 16, j.val < s.sp.val → s.stack[j.val].toNat < 4096) :
    ∀ j : Fin 16, j.val < t.sp.val → t.stack[j.val].toNat < 4096 := by
  intro j hj
  by_cases hp : .stack ∈ writesParts i
  · obtain rfl | ⟨nnn, rfl⟩ := (stack_mem_writesParts i).mp hp
    · obtain ⟨hsp, rfl⟩ := exec_ret_inv s t h
      simp only [State.setPc_sp, State.setPc_stack] at hj ⊢
      exact hs j (by omega)
    · obtain ⟨hsp, rfl⟩ := exec_call_inv s nnn t h
      simp only [State.setPc_sp, State.setPc_stack, Vector.getElem_set] at hj ⊢
      split
      · exact hpc
      · exact hs j (by omega)
  · obtain ⟨hsp, hst⟩ := (exec_fieldsBut h).stack hp
    rw [hsp] at hj
    rw [hst]
    exact hs j hj

theorem exec_inv {i : Instr} {s t : State} (h : exec i s = .next t) (hs : s.Inv) : t.Inv := by
  obtain ⟨hpc, hmem, hstack⟩ := hs
  exact ⟨exec_pc_lt h hpc, exec_mem_wf h hmem, exec_stack_lt h hpc hstack⟩

/-- The gap before a step touches no field the invariant speaks of. -/
theorem State.inv_beginStep {s : State} (hs : s.Inv) : s.beginStep.Inv := by
  simpa [State.Inv] using hs

/-- Settles O15: the gap keeps the invariant, and so does the instruction the step executes. -/
theorem stepKeepsInvariant : Obligations.StepKeepsInvariant := by
  intro s t hs h
  obtain ⟨i, -, hi⟩ := (step_eq_next s t).mp h
  exact exec_inv hi (State.inv_beginStep hs)

/-- Settles O51, by the frame of the fields. -/
theorem instructionFrames : Obligations.InstructionFrames :=
  fun _ _ _ h => (exec_fieldsBut h).sameBut

end Sys2Proof.Machine
end

section
/-! State that instructions do not read: stack entries at `SP` and above, and `ST`. The obligations
StaleStackUnobservable and SoundTimerHasNoEffect. -/

namespace Sys2Proof.Machine

/-! ## Rewriting the unread fields -/

/-- The state with other stack entries and another sound timer: the two fields that only RET, CALL and
Fx18 touch. `State.dropStale` and `State.setSt` are of this form. -/
def State.mapUnread (g : Vector Word 16 → Vector Word 16) (k : Byte → Byte) (s : State) : State :=
  { s with stack := g s.stack, st := k s.st }

variable (g : Vector Word 16 → Vector Word 16) (k : Byte → Byte) (s : State)

theorem State.drawRows_mapUnread (a vx vy n : Nat) :
    (s.mapUnread g k).drawRows a vx vy n = s.drawRows a vx vy n := by
  induction n with
  | zero => rfl
  | succ n ih => rw [State.drawRows, ih]; rfl

theorem State.writeBytes_mapUnread (a : Nat) (bs : List Byte) :
    (s.mapUnread g k).writeBytes a bs = (s.writeBytes a bs).mapUnread g k := by
  induction bs generalizing s a with
  | nil => rfl
  | cons b bs ih => exact ih (s.memWrite a b) (a + 1)

theorem State.storeRegs_mapUnread (a n : Nat) :
    (s.mapUnread g k).storeRegs a n = (s.storeRegs a n).mapUnread g k := by
  induction n with
  | zero => rfl
  | succ n ih => rw [State.storeRegs, ih]; rfl

theorem State.loadRegs_mapUnread (a n : Nat) :
    (s.mapUnread g k).loadRegs a n = (s.loadRegs a n).mapUnread g k := by
  induction n with
  | zero => rfl
  | succ n ih => rw [State.loadRegs, ih]; rfl

theorem exec_ret_mapUnread_id :
    exec .ret (s.mapUnread id k) = Answer.mapNext (State.mapUnread id k) (exec .ret s) := by
  by_cases h : 0 < s.sp.val
  · rw [exec_ret_of_pos s h, exec_ret_of_pos (s.mapUnread id k) h]
    rfl
  · have h0 : s.sp.val = 0 := by omega
    rw [exec_ret_of_zero s h0, exec_ret_of_zero (s.mapUnread id k) h0]
    rfl

theorem exec_call_mapUnread_id (nnn : Addr) :
    exec (.call nnn) (s.mapUnread id k) = Answer.mapNext (State.mapUnread id k) (exec (.call nnn) s) := by
  by_cases h : s.sp.val < 16
  · rw [exec_call_of_lt s nnn h, exec_call_of_lt (s.mapUnread id k) nnn h]
    rfl
  · have h16 : s.sp.val = 16 := by omega
    rw [exec_call_of_full s nnn h16, exec_call_of_full (s.mapUnread id k) nnn h16]
    rfl

/-- An instruction reads the stack only if it writes it, and never reads `ST`: it commutes with every
change of the two that leaves alone what it writes. -/
theorem exec_mapUnread (i : Instr) (hg : .stack ∈ writesParts i → g = id)
    (hk : .st ∈ writesParts i → k = id) :
    exec i (s.mapUnread g k) = Answer.mapNext (State.mapUnread g k) (exec i s) := by
  cases i
  case ret =>
    obtain rfl := hg (by decide)
    exact exec_ret_mapUnread_id k s
  case call nnn =>
    obtain rfl := hg (by simp [writesParts])
    exact exec_call_mapUnread_id k s nnn
  case ldToSt =>
    obtain rfl := hk (by simp [writesParts])
    rfl
  case ldKey x =>
    rw [exec_ldKey, exec_ldKey, show (s.mapUnread g k).lowestKey = s.lowestKey from rfl]
    cases s.lowestKey <;> rfl
  case drw => rw [exec_drw, State.drawRows_mapUnread]; rfl
  case bcd => rw [exec_bcd, State.writeBytes_mapUnread]; rfl
  case store => rw [exec_store, State.storeRegs_mapUnread]; rfl
  case load => rw [exec_load, State.loadRegs_mapUnread]; rfl
  all_goals rfl

theorem Answer.mapNext_mapNext (f f' : State → State) (A : Answer) :
    Answer.mapNext f (Answer.mapNext f' A) = Answer.mapNext (f ∘ f') A := by
  cases A <;> rfl

/-- Two functions that agree on the next state give the same answer. -/
theorem Answer.mapNext_congr {f f' : State → State} {A : Answer} (h : ∀ t, A = .next t → f t = f' t) :
    Answer.mapNext f A = Answer.mapNext f' A := by
  cases A with
  | next t => exact congrArg Host.Outcome.next (h t rfl)
  | fault | refused => rfl

/-! ## Stack entries at `SP` and above -/

/-- The stack with 0 in the entries from `n` on. -/
def zeroFrom (n : Nat) (v : Vector Word 16) : Vector Word 16 :=
  Vector.ofFn fun j : Fin 16 => if j.val < n then v[j.val] else 0#16

theorem getElem_zeroFrom (n : Nat) (v : Vector Word 16) (j : Nat) (hj : j < 16) :
    (zeroFrom n v)[j] = if j < n then v[j] else 0#16 := by
  simp [zeroFrom]

theorem State.dropStale_eq : s.dropStale = s.mapUnread (zeroFrom s.sp.val) id := rfl

/-- Zeroing fewer entries first is not seen. -/
theorem zeroFrom_zeroFrom {m n : Nat} (h : m ≤ n) (v : Vector Word 16) :
    zeroFrom m (zeroFrom n v) = zeroFrom m v := by
  ext j hj : 1
  simp only [getElem_zeroFrom]
  split
  · rw [if_pos (by omega)]
  · rfl

/-- A push overwrites the first entry that is not valid, so what it held is not seen. -/
theorem zeroFrom_set_zeroFrom (n : Nat) (hn : n < 16) (v : Vector Word 16) (a : Word) :
    zeroFrom (n + 1) ((zeroFrom n v).set n a) = zeroFrom (n + 1) (v.set n a) := by
  ext j hj : 1
  simp only [getElem_zeroFrom, Vector.getElem_set]
  by_cases hjn : n = j
  · simp [hjn]
  · have hlt : j < n + 1 ↔ j < n := by omega
    simp only [hjn, hlt, if_false]
    split <;> rfl

/-! The fields of a state without its stale entries. (A bare `rfl` for these would first try to unify the
two stacks.) -/

@[simp] theorem State.dropStale_pc : s.dropStale.pc = s.pc := by simp only [State.dropStale]
@[simp] theorem State.dropStale_sp : s.dropStale.sp = s.sp := by simp only [State.dropStale]
@[simp] theorem State.dropStale_mem : s.dropStale.mem = s.mem := by simp only [State.dropStale]
@[simp] theorem State.dropStale_gaps : s.dropStale.gaps = s.gaps := by simp only [State.dropStale]
@[simp] theorem State.dropStale_stack : s.dropStale.stack = zeroFrom s.sp.val s.stack := rfl

@[simp] theorem State.dropStale_fetchWord : s.dropStale.fetchWord = s.fetchWord := by
  simp only [State.fetchWord, State.memRead, State.dropStale_pc, State.dropStale_mem]

/-- States that differ only in their stacks, and there only in entries at `SP` and above. -/
theorem State.dropStale_congr {t t' : State} (h : t' = { t with stack := t'.stack })
    (hstack : zeroFrom t.sp.val t'.stack = zeroFrom t.sp.val t.stack) : t'.dropStale = t.dropStale := by
  rw [h, State.dropStale_eq, State.dropStale_eq, State.mapUnread, State.mapUnread, hstack]

/-- RET reads a valid entry. -/
theorem exec_ret_dropStale :
    Answer.mapNext State.dropStale (exec .ret s.dropStale) = Answer.mapNext State.dropStale (exec .ret s) := by
  by_cases h : 0 < s.sp.val
  · have htop : s.dropStale.stack[s.sp.val - 1] = s.stack[s.sp.val - 1] := by
      rw [getElem_congr_coll s.dropStale_stack, getElem_zeroFrom, if_pos (by omega)]
    rw [exec_ret_of_pos s h, exec_ret_of_pos s.dropStale (by rwa [State.dropStale_sp])]
    simp only [Answer.mapNext, State.dropStale_sp, htop]
    refine congrArg Host.Outcome.next (State.dropStale_congr rfl ?_)
    exact zeroFrom_zeroFrom (Nat.sub_le s.sp.val 1) s.stack
  · have h0 : s.sp.val = 0 := by omega
    rw [exec_ret_of_zero s h0, exec_ret_of_zero s.dropStale (by rwa [State.dropStale_sp]), State.dropStale_pc]

/-- CALL overwrites a stale entry. -/
theorem exec_call_dropStale (nnn : Addr) :
    Answer.mapNext State.dropStale (exec (.call nnn) s.dropStale) =
      Answer.mapNext State.dropStale (exec (.call nnn) s) := by
  by_cases h : s.sp.val < 16
  · rw [exec_call_of_lt s nnn h, exec_call_of_lt s.dropStale nnn (by rwa [State.dropStale_sp])]
    simp only [Answer.mapNext, State.dropStale_stack, State.dropStale_sp, State.dropStale_pc]
    refine congrArg Host.Outcome.next (State.dropStale_congr rfl ?_)
    exact zeroFrom_set_zeroFrom s.sp.val h s.stack s.pc
  · have h16 : s.sp.val = 16 := by omega
    rw [exec_call_of_full s nnn h16, exec_call_of_full s.dropStale nnn (by rwa [State.dropStale_sp]),
      State.dropStale_pc]

/-- Dropping the stale entries before an instruction is not seen when they are dropped after it. -/
theorem exec_dropStale (i : Instr) :
    Answer.mapNext State.dropStale (exec i s.dropStale) = Answer.mapNext State.dropStale (exec i s) := by
  by_cases hp : .stack ∈ writesParts i
  · obtain rfl | ⟨nnn, rfl⟩ := (stack_mem_writesParts i).mp hp
    · exact exec_ret_dropStale s
    · exact exec_call_dropStale s nnn
  · rw [State.dropStale_eq, exec_mapUnread _ _ _ _ (absurd · hp) (fun _ => rfl), Answer.mapNext_mapNext]
    refine Answer.mapNext_congr fun t ht => State.dropStale_congr rfl ?_
    obtain ⟨hsp, -⟩ := (exec_fieldsBut ht).stack hp
    rw [hsp]
    exact zeroFrom_zeroFrom le_rfl t.stack

theorem State.ticks_dropStale (n : Nat) : s.dropStale.ticks n = (s.ticks n).dropStale := by
  induction n generalizing s with
  | zero => rfl
  | succ n ih =>
    have htick : s.dropStale.tick = s.tick.dropStale := by
      simp only [State.tick, State.dropStale_eq, State.mapUnread, id]
    rw [State.ticks, htick, ih, State.ticks]

theorem State.beginStep_of_cons {gap : Gap} {rest : List Gap} (h : s.gaps = gap :: rest) :
    s.beginStep = { (s.ticks gap.ticks).setKeys gap.keys with gaps := rest } := by
  simp [State.beginStep, h]

/-- The gap before a step does not touch the stack. -/
theorem State.beginStep_dropStale : s.dropStale.beginStep = s.beginStep.dropStale := by
  cases h : s.gaps with
  | nil => rw [s.beginStep_of_nil h, s.dropStale.beginStep_of_nil (s.dropStale_gaps.trans h)]
  | cons gap rest =>
    rw [s.beginStep_of_cons h, s.dropStale.beginStep_of_cons (s.dropStale_gaps.trans h),
      State.ticks_dropStale]
    rfl

theorem step_dropStale :
    Answer.mapNext State.dropStale (step s.dropStale) = Answer.mapNext State.dropStale (step s) := by
  simp only [step, State.raise, State.beginStep_dropStale, State.dropStale_fetchWord, State.dropStale_pc]
  cases decode s.beginStep.fetchWord with
  | ok i => exact exec_dropStale s.beginStep i
  | error e => rfl

/-- Settles O54: both steps agree with the step from the common state without stale entries. -/
theorem staleStackUnobservable : Obligations.StaleStackUnobservable := by
  intro s s' h
  rw [← step_dropStale s, h, step_dropStale s']

/-- Settles O53: Fx18 overwrites `ST`, and every other instruction commutes with writing it. -/
theorem soundTimerHasNoEffect : Obligations.SoundTimerHasNoEffect := by
  intro i s b
  by_cases hp : .st ∈ writesParts i
  · obtain ⟨x, rfl⟩ := (st_mem_writesParts i).mp hp
    rfl
  · have hset (t : State) : t.setSt b = t.mapUnread id fun _ => b := rfl
    rw [hset, exec_mapUnread _ _ _ _ (fun _ => rfl) (absurd · hp), Answer.mapNext_mapNext]
    rfl

end Sys2Proof.Machine
end

section
/-! The flag register, canonical memories, the timers and the reset state: the obligations
FlagRegisterWriters, CanonicalMemoriesEqual, TicksLowerTimers, ResetHasInvariant and ResetValues. -/

namespace Sys2Proof.Machine

/-! ## The flag register -/

/-- An instruction that does not name `VF` among its registers keeps it. -/
theorem exec_keeps_flag {i : Instr} {s t : State} (h : exec i s = .next t)
    (hf : flagReg ∉ writesRegs i) : t.v flagReg = s.v flagReg := (exec_fieldsBut h).v _ hf

theorem flagReg_mem_writesRegs_load (x : Nibble) : flagReg ∈ writesRegs (.load x) ↔ x = flagReg := by
  rw [mem_writesRegs_load, BitVec.toNat_eq, show flagReg.toNat = 15 from rfl]
  omega

/-- An instruction of family 0x8 that defines a flag writes it last, also over a destination `VF` (41_alu.md
R120). -/
theorem State.v_flagReg_aluFlagged (s : State) (x : Nibble) (r : Byte) (c : Bool) :
    (s.aluFlagged x r c).v flagReg = if c then 1#8 else 0#8 := by
  simp only [State.aluFlagged, State.advance_v, State.v_setFlag, if_true]

/-- DRW's collision flag (40_framebuffer.md R103): XOR turns a pixel off exactly where the sprite has a 1
bit on a pixel that was on. -/
theorem State.drawRows_collision (s : State) (a vx vy n : Nat) (hn : n ≤ 32) :
    (s.drawRows a vx vy n).2 = true ↔
      ∃ px py, s.pixel px py = true ∧ (s.drawRows a vx vy n).1.pixel px py = false := by
  obtain ⟨hpix, hhit⟩ := s.drawRows_spec a vx vy n hn
  rw [hhit]
  refine exists_congr fun px => exists_congr fun py => and_congr_right fun hon => ?_
  rw [hpix, hon, Bool.true_xor, Bool.not_eq_false']

/-- Settles O42: the flag writers write the flag last, and the frame covers every other instruction. -/
theorem flagRegisterWriters : Obligations.FlagRegisterWriters := by
  intro i s t h
  cases i
  case addReg | sub | subn =>
    cases h
    simp only [State.v_flagReg_aluFlagged, carryFlag, greaterFlag, decide_eq_true_eq]
  case shr | shl =>
    cases h
    exact State.v_flagReg_aluFlagged ..
  case drw x y n =>
    rw [exec_drw] at h
    cases h
    have hn : n.toNat ≤ 32 := by omega
    simp only [State.advance_v, State.v_setFlag, if_true, s.drawRows_collision _ _ _ _ hn]
    rfl
  case ldImm | addImm | ldReg | orReg | andReg | xorReg | rnd | ldFromDt | ldKey =>
    intro hx
    exact exec_keeps_flag h (by simpa [writesRegs] using hx.symm)
  case load x =>
    intro hx
    exact exec_keeps_flag h (mt (flagReg_mem_writesRegs_load x).mp hx)
  all_goals exact exec_keeps_flag h (by simp [writesRegs])

/-! ## Canonical memories -/

/-- An address that no entry has reads as an unlisted cell. -/
theorem Memory.read_of_forall_ne (m : Memory) (a : Nat) (h : ∀ c ∈ m, c.1 ≠ a) :
    m.read a = Config.memInit a := by
  induction m with
  | nil => rfl
  | cons c m ih =>
    have hc : a ≠ c.1 := (h c (by simp)).symm
    rw [Memory.read_cons, if_neg hc]
    exact ih fun d hd => h d (by simp [hd])

/-- A memory with rising addresses reads every entry it lists. -/
theorem Memory.read_of_mem (m : Memory) (hm : m.Pairwise (fun c d => c.1 < d.1)) (c : Host.Cell)
    (hc : c ∈ m) : m.read c.1 = c.2 := by
  induction m with
  | nil => cases hc
  | cons d m ih =>
    obtain ⟨hlt, hm⟩ := List.pairwise_cons.mp hm
    rw [Memory.read_cons]
    obtain rfl | hc := List.mem_cons.mp hc
    · exact if_pos rfl
    · rw [if_neg (hlt c hc).ne']
      exact ih hm hc

/-- The entries of a canonical memory are what it reads, where that is not an unlisted cell's value. -/
theorem Memory.mem_iff_of_wf (m : Memory) (hm : m.wf) (c : Host.Cell) :
    c ∈ m ↔ c.1 < 4096 ∧ c.2 ≠ Config.memInit c.1 ∧ m.read c.1 = c.2 := by
  obtain ⟨hp, hval⟩ := hm
  constructor
  · intro hc
    exact ⟨(hval c hc).1, (hval c hc).2, m.read_of_mem hp c hc⟩
  · rintro ⟨-, hne, hread⟩
    by_contra hc
    refine hne (hread.symm.trans (m.read_of_forall_ne _ fun d hd hdc => ?_))
    have hdv : d.2 = c.2 := by rw [← m.read_of_mem hp d hd, hdc, hread]
    exact hc (Prod.ext hdc hdv ▸ hd)

/-- Settles O55: canonical memories that read alike list the same entries, in the same order. -/
theorem canonicalMemoriesEqual : Obligations.CanonicalMemoriesEqual := by
  intro m m' hm hm' hread
  have hanti : Std.Antisymm (fun c d : Host.Cell => c.1 < d.1) := ⟨fun _ _ h h' => absurd h' h.asymm⟩
  have hirr : Std.Irrefl (fun c d : Host.Cell => c.1 < d.1) := ⟨fun _ => lt_irrefl _⟩
  refine hm.1.eq_of_mem_iff hm'.1 fun c => ?_
  rw [m.mem_iff_of_wf hm, m'.mem_iff_of_wf hm']
  exact and_congr_right fun hlt => by rw [hread c.1 hlt]

/-! ## Timers -/

/-- Settles O56: `n` ticks are one write of each timer (`State.ticks_eq`). -/
theorem ticksLowerTimers : Obligations.TicksLowerTimers := by
  intro n s
  have hlower (b : Byte) : (BitVec.ofNat 8 (b.toNat - n)).toNat = b.toNat - n := by
    rw [BitVec.toNat_ofNat, Nat.mod_eq_of_lt (by omega)]
  have hticks : s.ticks n = (s.setDt (BitVec.ofNat 8 (s.dt.toNat - n))).setSt
      (BitVec.ofNat 8 (s.st.toNat - n)) := s.ticks_eq n
  have same := FieldsBut.refl [] [.dt, .st] s
  rw [hticks]
  exact ⟨hlower s.dt, hlower s.st, rfl, ((same.setDt _ (by decide)).setSt _ (by decide)).sameBut⟩

/-! ## Reset -/

theorem State.inv_resetWith {m : Memory} (hm : m.wf) : (State.resetWith m).Inv :=
  ⟨show (512#16).toNat < 4096 by decide, hm, fun j hj => absurd hj (Nat.not_lt_zero _)⟩

/-- Settles O16: no stack entry is valid at reset, and the empty memory is canonical. -/
theorem resetHasInvariant : Obligations.ResetHasInvariant :=
  ⟨State.inv_resetWith Memory.wf_nil, fun _ hm => State.inv_resetWith hm⟩

/-- Settles O18: every vector of the reset state is a constant one. -/
theorem resetValues : Obligations.ResetValues := by
  intro m
  refine ⟨rfl, fun x => ?_, rfl, rfl, fun j => ?_, rfl, rfl, fun k => ?_, fun cx cy => ?_,
    fun a => rfl, rfl, rfl⟩
  · exact Vector.getElem_replicate _
  · exact Vector.getElem_replicate _
  · exact Vector.getElem_replicate _
  · exact Framebuffer.pixel_blank cx cy

end Sys2Proof.Machine
end

section
/-! What the next step fetches, and which bytes of memory an instruction leaves: the obligations
FetchIsBigEndian, MemoryWriters and StoredWordIsFetchedNext. -/

namespace Sys2Proof.Machine

variable (s : State)

/-! ## The fetched word -/

theorem State.toNat_fetchWord :
    s.fetchWord.toNat = (s.memRead s.pc.toNat).toNat * 256 + (s.memRead (s.pc.toNat + 1)).toNat :=
  toNat_append_eq (s.memRead s.pc.toNat) (s.memRead (s.pc.toNat + 1))

/-- Settles O10: a program counter below 4096 is its own remainder. -/
theorem fetchIsBigEndian : Obligations.FetchIsBigEndian := by
  intro s hpc
  rw [s.toNat_fetchWord, State.memRead, State.memRead, Nat.mod_eq_of_lt hpc]

/-! ## The bytes an instruction leaves -/

/-- Settles O52: only BCD and STORE have memory among the parts they write, and both end in an operation
whose other addresses read as before. -/
theorem memoryWriters : Obligations.MemoryWriters := by
  intro i s t h a ha
  by_cases hp : .mem ∈ writesParts i
  · obtain ⟨x, rfl⟩ | ⟨x, rfl⟩ := (mem_mem_writesParts i).mp hp
    · rw [exec_bcd] at h
      cases h
      exact s.memRead_writeBytes_of_ne (decimalDigits (s.v x)) s.index.toNat a ha
    · rw [exec_store] at h
      cases h
      obtain ⟨-, hkeep⟩ := s.memRead_storeRegs s.index.toNat (x.toNat + 1) x.isLt
      exact hkeep a ha
  · rw [State.memRead, State.memRead, (exec_fieldsBut h).mem hp]

/-! ## A store over the next instruction -/

@[simp] theorem State.writeBytes_pc (a : Nat) (bs : List Byte) : (s.writeBytes a bs).pc = s.pc := by
  rw [State.writeBytes_eq]

@[simp] theorem State.storeRegs_pc (a n : Nat) : (s.storeRegs a n).pc = s.pc := by
  rw [State.storeRegs_eq]

/-- Where BCD's three digits go (42_misc.md R147). -/
theorem State.toNat_memRead_writeBytes_decimalDigits (a : Nat) (b : Byte) :
    ((s.writeBytes a (decimalDigits b)).memRead a).toNat = b.toNat / 100 ∧
    ((s.writeBytes a (decimalDigits b)).memRead (a + 1)).toNat = b.toNat / 10 % 10 ∧
    ((s.writeBytes a (decimalDigits b)).memRead (a + 2)).toNat = b.toNat % 10 := by
  have hstored (k : Nat) (hk : k < 3) :
      (s.writeBytes a (decimalDigits b)).memRead (a + k) = (decimalDigits b)[k]'hk :=
    s.memRead_writeBytes (decimalDigits b) a k hk (show 3 ≤ 4096 by decide)
  have hdigit (d : Nat) (hd : d < 256) : (BitVec.ofNat 8 d).toNat = d := by
    rw [BitVec.toNat_ofNat, Nat.mod_eq_of_lt hd]
  have hb := b.isLt
  refine ⟨?_, ?_, ?_⟩
  · exact (congrArg BitVec.toNat (hstored 0 (by decide))).trans (hdigit (b.toNat / 100) (by omega))
  · exact (congrArg BitVec.toNat (hstored 1 (by decide))).trans (hdigit (b.toNat / 10 % 10) (by omega))
  · exact (congrArg BitVec.toNat (hstored 2 (by decide))).trans (hdigit (b.toNat % 10) (by omega))

/-- The word fetched after `PC` moves on by 2 to the address `a`. -/
theorem State.toNat_fetchWord_advance {a hi lo : Nat} (ha : a = (s.pc.toNat + 2) % 4096)
    (hhi : (s.memRead a).toNat = hi) (hlo : (s.memRead (a + 1)).toNat = lo) :
    (s.advance 2).fetchWord.toNat = hi * 256 + lo := by
  rw [State.toNat_fetchWord, State.toNat_advance, ← ha, State.advance_memRead, State.advance_memRead,
    hhi, hlo]

/-- Settles O50: both stores keep the program counter, and the address they start at is the one the
next step fetches from. -/
theorem storedWordIsFetchedNext : Obligations.StoredWordIsFetchedNext := by
  intro x s hindex
  constructor
  · intro hx
    refine ⟨_, exec_store s x, ?_⟩
    obtain ⟨hstored, -⟩ := s.memRead_storeRegs s.index.toNat (x.toNat + 1) x.isLt
    have h0 := congrArg BitVec.toNat (hstored 0 (by omega))
    have h1 := congrArg BitVec.toNat (hstored 1 (by omega))
    exact State.toNat_fetchWord_advance _ (by rwa [State.storeRegs_pc]) h0 h1
  · refine ⟨_, exec_bcd s x, ?_⟩
    obtain ⟨h0, h1, -⟩ := s.toNat_memRead_writeBytes_decimalDigits s.index.toNat (s.v x)
    exact State.toNat_fetchWord_advance _ (by rwa [State.writeBytes_pc]) h0 h1

end Sys2Proof.Machine
end

section
/-! The decoder against the encoder and against the opcode map, the illegal words, and the fields of a
word: the obligations DecodeUndoesEncode, EncodeUndoesDecode, DecodeFollowsOpcodeMap,
NoWordSelectsTwoRows, IllegalWordsByClass, FamilyEightKeys, FieldsRebuildWord and SampleWordsDecode. -/

namespace Sys2Proof

variable {w v : Word} {i : Instr}

/-! ## The families that are keyed further (30_encoding.md R74 to R77) -/

theorem decode_of_system (h : opField w = 0x0#4) : decode w = decodeSystem w := by
  simp only [decode, h]

theorem decode_of_alu (h : opField w = 0x8#4) :
    decode w = decodeAlu (xField w) (yField w) (nField w) := by
  simp only [decode, h]

theorem decode_of_keypad (h : opField w = 0xE#4) : decode w = decodeKeypad (xField w) (kkField w) := by
  simp only [decode, h]

/-- The family that the decoder's first match leaves to its last arm. -/
theorem opField_eq_F (h : opField w ∉ [0x0#4, 0x1#4, 0x2#4, 0x3#4, 0x4#4, 0x5#4, 0x6#4, 0x7#4, 0x8#4,
    0x9#4, 0xA#4, 0xB#4, 0xC#4, 0xD#4, 0xE#4]) : opField w = 0xF#4 := by
  generalize opField w = k at h
  decide +revert

theorem decode_of_misc (h : opField w = 0xF#4) : decode w = decodeMisc (xField w) (kkField w) := by
  rw [decode, h]
  rfl

/-! ## Decoding an encoded instruction -/

/-- Settles O1: the encoder's fields reach the instruction's row in the decoder's table for the family. -/
theorem decodeUndoesEncode : Obligations.DecodeUndoesEncode := by
  intro i
  cases i
  case cls | ret => rfl
  case ldReg | orReg | andReg | xorReg | addReg | sub | shr | subn | shl =>
    simp only [encode, decode_of_alu, decodeAlu, opField_encXyn, xField_encXyn, yField_encXyn, nField_encXyn]
  case skp | sknp =>
    simp only [encode, decode_of_keypad, decodeKeypad, opField_encXkk, xField_encXkk, kkField_encXkk]
  case ldFromDt | ldKey | ldToDt | ldToSt | addI | ldFont | bcd | store | load =>
    simp only [encode, decode_of_misc, decodeMisc, opField_encXkk, xField_encXkk, kkField_encXkk]
  all_goals simp [encode, decode]

/-! ## Encoding a decoded word

What the encoder makes of each format's fields is the word without the bits its decoder ignores. -/

theorem and_careMask_of_op {k : Nibble} (hop : opField w = k) (hk : k ∉ [0x5#4, 0x8#4, 0x9#4]) :
    w &&& careMask w = w := by
  simp only [List.mem_cons, List.not_mem_nil, or_false, not_or] at hk
  obtain ⟨h5, h8, h9⟩ := hk
  exact and_careMask_of_family w (hop ▸ h5) (hop ▸ h8) (hop ▸ h9)

theorem encNnn_eq_and_careMask {k : Nibble} (hop : opField w = k) (hk : k ∉ [0x5#4, 0x8#4, 0x9#4]) :
    encNnn k (nnnField w) = w &&& careMask w := by
  rw [and_careMask_of_op hop hk, ← hop, encNnn_fields]

theorem encXkk_eq_and_careMask {k : Nibble} (hop : opField w = k) (hk : k ∉ [0x5#4, 0x8#4, 0x9#4]) :
    encXkk k (xField w) (kkField w) = w &&& careMask w := by
  rw [and_careMask_of_op hop hk, ← hop, encXkk_fields]

/-- The mask of the bits that are read, by the fields that decide it. -/
theorem careMask_eq (w : Word) : careMask w =
    if opField w = 0x5#4 then 0xFFF0#16
    else if opField w = 0x9#4 then 0xFFF0#16
    else if opField w = 0x8#4 ∧ nField w = 0x6#4 then 0xFF0F#16
    else if opField w = 0x8#4 ∧ nField w = 0xE#4 then 0xFF0F#16
    else 0xFFFF#16 := by
  simp only [careMask, and_familyMask w 0x5000#16 0x5#4 rfl, and_familyMask w 0x9000#16 0x9#4 rfl,
    and_nibbleKeyMask w 0x8006#16 0x8#4 0x6#4 rfl, and_nibbleKeyMask w 0x800E#16 0x8#4 0xE#4 rfl]

theorem Nibble.and_F (v : Nibble) : v &&& 0xF#4 = v := BitVec.and_allOnes

/-- A two-register skip. -/
theorem encXyn_zero_eq_and_careMask {k : Nibble} (hop : opField w = k) (hk : k ∈ [0x5#4, 0x9#4]) :
    encXyn k (xField w) (yField w) 0x0#4 = w &&& careMask w := by
  have hcare : careMask w = encXyn 0xF#4 0xF#4 0xF#4 0x0#4 := by
    simp only [List.mem_cons, List.not_mem_nil, or_false] at hk
    rw [careMask_eq, hop]
    rcases hk with rfl | rfl <;> rfl
  rw [hcare, and_encXyn, hop]
  simp only [Nibble.and_F, BitVec.and_zero]

/-- An instruction of family 0x8: the shifts ignore the `y` field. -/
theorem encXyn_alu_eq_and_careMask (hop : opField w = 0x8#4) :
    encXyn 0x8#4 (xField w) (if nField w = 0x6#4 ∨ nField w = 0xE#4 then 0x0#4 else yField w) (nField w)
      = w &&& careMask w := by
  split
  · next hn =>
    have hcare : careMask w = encXyn 0xF#4 0xF#4 0x0#4 0xF#4 := by
      rw [careMask_eq, hop]
      rcases hn with hn | hn <;> rw [hn] <;> rfl
    rw [hcare, and_encXyn, hop]
    simp only [Nibble.and_F, BitVec.and_zero]
  · next hn =>
    rw [and_careMask_of_alu w hop (fun h => hn (.inl h)) (fun h => hn (.inr h)), ← hop, encXyn_fields]

theorem encode_of_decodeSystem (h : decodeSystem w = .ok i) : encode i = w := by
  unfold decodeSystem at h
  split_ifs at h with hcls hret
  · cases h; exact hcls.symm
  · cases h; exact hret.symm

theorem encode_of_decodeAlu {x y n : Nibble} (h : decodeAlu x y n = .ok i) :
    encode i = encXyn 0x8#4 x (if n = 0x6#4 ∨ n = 0xE#4 then 0x0#4 else y) n := by
  unfold decodeAlu at h
  split at h <;> cases h <;> rfl

theorem encode_of_decodeKeypad {x : Nibble} {key : Byte} (h : decodeKeypad x key = .ok i) :
    encode i = encXkk 0xE#4 x key := by
  unfold decodeKeypad at h
  split at h <;> cases h <;> rfl

theorem encode_of_decodeMisc {x : Nibble} {key : Byte} (h : decodeMisc x key = .ok i) :
    encode i = encXkk 0xF#4 x key := by
  unfold decodeMisc at h
  split at h <;> cases h <;> rfl

/-- A family that is not keyed further: every word of it decodes. -/
theorem decode_of_unkeyed (h : opField w ∉ [0x0#4, 0x8#4, 0xE#4, 0xF#4]) :
    ∃ i, decode w = .ok i ∧ encode i = w &&& careMask w := by
  simp only [List.mem_cons, List.not_mem_nil, or_false, not_or] at h
  obtain ⟨h0, h8, hE, hF⟩ := h
  unfold decode
  split
  case h_1 hop => exact absurd hop h0
  case h_9 hop => exact absurd hop h8
  case h_15 hop => exact absurd hop hE
  case h_16 => exact absurd (opField_eq_F (by simp only [imp_false] at *; simp [*])) hF
  case h_2 hop | h_3 hop | h_11 hop | h_12 hop =>
    exact ⟨_, rfl, encNnn_eq_and_careMask hop (by decide)⟩
  case h_4 hop | h_5 hop | h_7 hop | h_8 hop | h_13 hop =>
    exact ⟨_, rfl, encXkk_eq_and_careMask hop (by decide)⟩
  case h_6 hop | h_10 hop => exact ⟨_, rfl, encXyn_zero_eq_and_careMask hop (by decide)⟩
  case h_14 hop =>
    exact ⟨_, rfl, by rw [and_careMask_of_op hop (by decide), encode, ← hop, encXyn_fields]⟩

/-- What the decoder can answer: one of the four keyed families' tables decides, or the family alone. -/
theorem decode_cases (w : Word) :
    (opField w = 0x0#4 ∧ decode w = decodeSystem w) ∨
    (opField w = 0x8#4 ∧ decode w = decodeAlu (xField w) (yField w) (nField w)) ∨
    (opField w = 0xE#4 ∧ decode w = decodeKeypad (xField w) (kkField w)) ∨
    (opField w = 0xF#4 ∧ decode w = decodeMisc (xField w) (kkField w)) ∨
    (opField w ∉ [0x0#4, 0x8#4, 0xE#4, 0xF#4] ∧
      ∃ i, decode w = .ok i ∧ encode i = w &&& careMask w) := by
  by_cases h : opField w ∈ [0x0#4, 0x8#4, 0xE#4, 0xF#4]
  · simp only [List.mem_cons, List.not_mem_nil, or_false] at h
    obtain h | h | h | h := h
    · exact .inl ⟨h, decode_of_system h⟩
    · exact .inr (.inl ⟨h, decode_of_alu h⟩)
    · exact .inr (.inr (.inl ⟨h, decode_of_keypad h⟩))
    · exact .inr (.inr (.inr (.inl ⟨h, decode_of_misc h⟩)))
  · exact .inr (.inr (.inr (.inr ⟨h, decode_of_unkeyed h⟩)))

/-- Settles O2: each table keeps the operands it is given, but for the `y` field of a shift. -/
theorem encodeUndoesDecode : Obligations.EncodeUndoesDecode := by
  intro w i h
  obtain ⟨hop, hd⟩ | ⟨hop, hd⟩ | ⟨hop, hd⟩ | ⟨hop, hd⟩ | ⟨-, j, hd, hj⟩ := decode_cases w <;>
    rw [hd] at h
  · rw [encode_of_decodeSystem h, and_careMask_of_op hop (by decide)]
  · rw [encode_of_decodeAlu h, encXyn_alu_eq_and_careMask hop]
  · rw [encode_of_decodeKeypad h, encXkk_eq_and_careMask hop (by decide)]
  · rw [encode_of_decodeMisc h, encXkk_eq_and_careMask hop (by decide)]
  · cases h
    exact hj

/-! ## Illegal words -/

theorem decodeSystem_eq_error {e : DecodeError} :
    decodeSystem w = .error e ↔ e = .unknownSystemWord ∧ w ∉ [0x00E0#16, 0x00EE#16] := by
  unfold decodeSystem
  split_ifs <;> simp [*, @eq_comm _ e]

theorem decodeAlu_eq_error {x y n : Nibble} {e : DecodeError} :
    decodeAlu x y n = .error e ↔ e = .unknownAluKey ∧
      n ∉ [0x0#4, 0x1#4, 0x2#4, 0x3#4, 0x4#4, 0x5#4, 0x6#4, 0x7#4, 0xE#4] := by
  unfold decodeAlu
  split
  case h_10 =>
    simp only [imp_false] at *
    simp [*, @eq_comm _ e]
  all_goals simp

theorem decodeKeypad_eq_error {x : Nibble} {key : Byte} {e : DecodeError} :
    decodeKeypad x key = .error e ↔ e = .unknownKeypadKey ∧ key ∉ [0x9E#8, 0xA1#8] := by
  unfold decodeKeypad
  split
  case h_3 =>
    simp only [imp_false] at *
    simp [*, @eq_comm _ e]
  all_goals simp

theorem decodeMisc_eq_error {x : Nibble} {key : Byte} {e : DecodeError} :
    decodeMisc x key = .error e ↔ e = .unknownMiscKey ∧ key ∉
      [0x07#8, 0x0A#8, 0x15#8, 0x18#8, 0x1E#8, 0x29#8, 0x33#8, 0x55#8, 0x65#8] := by
  unfold decodeMisc
  split
  case h_10 =>
    simp only [imp_false] at *
    simp [*, @eq_comm _ e]
  all_goals simp

/-- Every rejection, with the words it is for (30_encoding.md R79). -/
theorem decode_eq_error {e : DecodeError} : decode w = .error e ↔
    (e = .unknownSystemWord ∧ opField w = 0x0#4 ∧ w ∉ [0x00E0#16, 0x00EE#16]) ∨
    (e = .unknownAluKey ∧ opField w = 0x8#4 ∧
      nField w ∉ [0x0#4, 0x1#4, 0x2#4, 0x3#4, 0x4#4, 0x5#4, 0x6#4, 0x7#4, 0xE#4]) ∨
    (e = .unknownKeypadKey ∧ opField w = 0xE#4 ∧ kkField w ∉ [0x9E#8, 0xA1#8]) ∨
    (e = .unknownMiscKey ∧ opField w = 0xF#4 ∧ kkField w ∉
      [0x07#8, 0x0A#8, 0x15#8, 0x18#8, 0x1E#8, 0x29#8, 0x33#8, 0x55#8, 0x65#8]) := by
  obtain ⟨hop, hd⟩ | ⟨hop, hd⟩ | ⟨hop, hd⟩ | ⟨hop, hd⟩ | ⟨hop, j, hd, -⟩ := decode_cases w <;>
    rw [hd]
  · simp [hop, decodeSystem_eq_error]
  · simp [hop, decodeAlu_eq_error]
  · simp [hop, decodeKeypad_eq_error]
  · simp [hop, decodeMisc_eq_error]
  · simp only [List.mem_cons, List.not_mem_nil, or_false, not_or] at hop
    simp [hop]

theorem opField_eq_zero : opField w = 0x0#4 ↔ w.toNat < 0x1000 := by
  rw [BitVec.toNat_eq, toNat_opField, show (0x0#4).toNat = 0 from rfl]
  omega

/-- The undefined keys of family 0x8 are the other seven nibbles. -/
theorem not_mem_aluKeys (n : Nibble) :
    n ∉ [0x0#4, 0x1#4, 0x2#4, 0x3#4, 0x4#4, 0x5#4, 0x6#4, 0x7#4, 0xE#4] ↔
      n ∈ [0x8#4, 0x9#4, 0xA#4, 0xB#4, 0xC#4, 0xD#4, 0xF#4] := by
  revert n
  decide

/-- Settles O5: each class names its rejection, so the other classes drop out. -/
theorem illegalWordsByClass : Obligations.IllegalWordsByClass := by
  intro w
  simp only [decode_eq_error, not_mem_aluKeys, opField_eq_zero, ne_eq]
  simp

/-- Settles O6: the keys that are not rejected decode. -/
theorem familyEightKeys : Obligations.FamilyEightKeys := by
  intro w hop
  have herror : decode w = .error .unknownAluKey ↔
      nField w ∈ [0x8#4, 0x9#4, 0xA#4, 0xB#4, 0xC#4, 0xD#4, 0xF#4] := by
    rw [decode_of_alu hop, decodeAlu_eq_error, not_mem_aluKeys, eq_self, true_and]
  refine ⟨?_, herror⟩
  rw [← not_iff_not, not_mem_aluKeys, ← herror, decode_of_alu hop]
  cases h : decodeAlu (xField w) (yField w) (nField w) with
  | ok i => simp
  | error e => simp [(decodeAlu_eq_error.mp h).1]

/-! ## The opcode map -/

/-- The bits of a word that route it to its instruction, by its family. -/
def keyMask (op : Nibble) : Word :=
  if op = 0x0#4 then 0xFFFF#16
  else if op = 0x8#4 then 0xF00F#16
  else if op = 0xE#4 ∨ op = 0xF#4 then 0xF0FF#16
  else 0xF000#16

/-- Each row's mask is its family's, its match has no bit outside the mask, and the match, taken as a word,
decodes to the row's mnemonic (30_encoding.md R78). -/
theorem opcodeTable_routes : ∀ r ∈ opcodeTable, r.mask = keyMask (opField r.value) ∧
    r.value &&& r.mask = r.value ∧ (decode r.value).map Instr.mnemonic = .ok r.mnemonic := by
  decide

theorem opField_and (w m : Word) : opField (w &&& m) = opField w &&& opField m :=
  BitVec.extractLsb'_and ..

theorem nField_and (w m : Word) : nField (w &&& m) = nField w &&& nField m :=
  BitVec.extractLsb'_and ..

theorem kkField_and (w m : Word) : kkField (w &&& m) = kkField w &&& kkField m :=
  BitVec.extractLsb'_and ..

theorem opField_keyMask : ∀ k, opField (keyMask k) = 0xF#4 := by decide

theorem opField_and_keyMask (w : Word) (k : Nibble) : opField (w &&& keyMask k) = opField w := by
  rw [opField_and, opField_keyMask, Nibble.and_F]

theorem mnemonic_decodeAlu (x y x' y' n : Nibble) :
    (decodeAlu x y n).map Instr.mnemonic = (decodeAlu x' y' n).map Instr.mnemonic := by
  unfold decodeAlu
  split <;> rfl

theorem mnemonic_decodeKeypad (x x' : Nibble) (key : Byte) :
    (decodeKeypad x key).map Instr.mnemonic = (decodeKeypad x' key).map Instr.mnemonic := by
  unfold decodeKeypad
  split <;> rfl

theorem mnemonic_decodeMisc (x x' : Nibble) (key : Byte) :
    (decodeMisc x key).map Instr.mnemonic = (decodeMisc x' key).map Instr.mnemonic := by
  unfold decodeMisc
  split <;> rfl

theorem nField_eq_of_keyMask (h : w &&& keyMask 0x8#4 = v &&& keyMask 0x8#4) : nField w = nField v := by
  have hmask : nField (keyMask 0x8#4) = 0xF#4 := by decide
  simpa only [nField_and, hmask, Nibble.and_F] using congrArg nField h

theorem kkField_eq_of_keyMask {k : Nibble} (hk : k ∈ [0xE#4, 0xF#4])
    (h : w &&& keyMask k = v &&& keyMask k) : kkField w = kkField v := by
  have hmask : ∀ k ∈ [0xE#4, 0xF#4], kkField (keyMask k) = BitVec.allOnes 8 := by decide
  simpa only [kkField_and, hmask k hk, BitVec.and_allOnes] using congrArg kkField h

/-- Which instruction the decoder answers, operands aside, depends on the routing bits alone. -/
theorem mnemonic_decode_congr (h : w &&& keyMask (opField v) = v &&& keyMask (opField v)) :
    (decode w).map Instr.mnemonic = (decode v).map Instr.mnemonic := by
  have hop : opField w = opField v := by
    simpa only [opField_and_keyMask] using congrArg opField h
  unfold decode
  rw [hop]
  split
  case h_1 hv =>
    rw [hv] at h
    rw [show w = v by simpa only [keyMask, if_true, and_fullMask] using h]
  case h_9 hv =>
    rw [nField_eq_of_keyMask (hv ▸ h)]
    exact mnemonic_decodeAlu ..
  case h_15 hv =>
    rw [kkField_eq_of_keyMask (k := 0xE#4) (by decide) (hv ▸ h)]
    exact mnemonic_decodeKeypad ..
  case h_16 =>
    have hv : opField v = 0xF#4 := opField_eq_F (by simp only [imp_false] at *; simp [*])
    rw [kkField_eq_of_keyMask (k := 0xF#4) (by decide) (hv ▸ h)]
    exact mnemonic_decodeMisc ..
  all_goals rfl

theorem OpRow.selects_iff (r : OpRow) (w : Word) : r.selects w = true ↔ w &&& r.mask = r.value := by
  rw [OpRow.selects, beq_iff_eq]

/-- A selected row's match routes as the word does. -/
theorem decode_of_selects {r : OpRow} (hr : r ∈ opcodeTable) (hs : r.selects w = true) :
    ∃ i, decode w = .ok i ∧ i.mnemonic = r.mnemonic := by
  obtain ⟨hmask, hvalue, hmnem⟩ := opcodeTable_routes r hr
  have hkey : w &&& keyMask (opField r.value) = r.value &&& keyMask (opField r.value) := by
    rw [← hmask, hvalue, (r.selects_iff w).mp hs]
  rw [← mnemonic_decode_congr hkey] at hmnem
  cases hd : decode w with
  | ok i => exact ⟨i, rfl, by simpa [hd, Except.map] using hmnem⟩
  | error e => simp [hd, Except.map] at hmnem

open Laws.EncodesItsRow in
/-- Every instruction's canonical word selects the row of its mnemonic. -/
theorem encodesItsRow : ∀ i : Instr, Laws.EncodesItsRow.Statement i
  | .cls => cls | .ret => ret | .jp _ => jp _ | .call _ => call _
  | .seImm _ _ => seImm _ _ | .sneImm _ _ => sneImm _ _ | .seReg _ _ => seReg _ _
  | .ldImm _ _ => ldImm _ _ | .addImm _ _ => addImm _ _ | .ldReg _ _ => ldReg _ _
  | .orReg _ _ => orReg _ _ | .andReg _ _ => andReg _ _ | .xorReg _ _ => xorReg _ _
  | .addReg _ _ => addReg _ _ | .sub _ _ => sub _ _ | .shr _ => shr _ | .subn _ _ => subn _ _
  | .shl _ => shl _ | .sneReg _ _ => sneReg _ _ | .ldI _ => ldI _ | .jpV0 _ => jpV0 _
  | .rnd _ _ => rnd _ _ | .drw _ _ _ => drw _ _ _ | .skp _ => skp _ | .sknp _ => sknp _
  | .ldFromDt _ => ldFromDt _ | .ldKey _ => ldKey _ | .ldToDt _ => ldToDt _ | .ldToSt _ => ldToSt _
  | .addI _ => addI _ | .ldFont _ => ldFont _ | .bcd _ => bcd _ | .store _ => store _
  | .load _ => load _

/-- The decoder reads every bit that routes it. -/
theorem careMask_and_keyMask (w : Word) : careMask w &&& keyMask (opField w) = keyMask (opField w) := by
  rw [careMask_eq]
  split_ifs with h5 h9 h6 hE
  · rw [h5]; rfl
  · rw [h9]; rfl
  · rw [h6.1]; rfl
  · rw [hE.1]; rfl
  · exact BitVec.allOnes_and

theorem opField_careMask (w : Word) : opField (careMask w) = 0xF#4 := by
  rw [← opField_and_keyMask (careMask w) (opField w), careMask_and_keyMask, opField_keyMask]

/-- A decoded word selects the row of its instruction: the canonical word does, and it differs from the
word in ignored bits only. -/
theorem selects_of_decode (h : decode w = .ok i) :
    ∃ r ∈ opcodeTable, r.selects w = true ∧ r.mnemonic = i.mnemonic := by
  obtain ⟨⟨r, hr, hmnem, hs⟩, -⟩ := encodesItsRow i
  obtain ⟨hmask, -, -⟩ := opcodeTable_routes r hr
  rw [OpRow.selects_iff, encodeUndoesDecode w i h] at hs
  have hop : opField r.value = opField w := by
    rw [← hs, hmask, opField_and_keyMask, opField_and, opField_careMask, Nibble.and_F]
  rw [hop] at hmask
  rw [hmask, BitVec.and_assoc, careMask_and_keyMask, ← hmask] at hs
  exact ⟨r, hr, (r.selects_iff w).mpr hs, hmnem⟩

/-- Settles O3: selected rows decode by `decode_of_selects`, decoded words select by `selects_of_decode`. -/
theorem decodeFollowsOpcodeMap : Obligations.DecodeFollowsOpcodeMap :=
  ⟨fun _ _ hr hs => decode_of_selects hr hs, fun _ _ h => selects_of_decode h⟩

theorem mnemonics_nodup : (opcodeTable.map OpRow.mnemonic).Nodup := by decide

/-- Settles O4: the word decodes to one instruction, and no two rows share its mnemonic. -/
theorem noWordSelectsTwoRows : Obligations.NoWordSelectsTwoRows := by
  intro w q hq r hr hsq hsr
  obtain ⟨i, hi, hqi⟩ := decode_of_selects hq hsq
  obtain ⟨j, hj, hrj⟩ := decode_of_selects hr hsr
  have hij : i = j := Except.ok.inj (hi.symm.trans hj)
  exact List.inj_on_of_nodup_map mnemonics_nodup hq hr (by rw [← hqi, ← hrj, hij])

/-! ## Fields -/

/-- Settles O7, on the fields as numbers. -/
theorem fieldsRebuildWord : Obligations.FieldsRebuildWord := by
  intro w
  simp only [toNat_opField, toNat_xField, toNat_yField, toNat_nField, toNat_kkField, toNat_nnnField,
    true_and, and_true]
  omega

/-- Settles O8, by running the decoder. -/
theorem sampleWordsDecode : Obligations.SampleWordsDecode := by
  unfold Obligations.SampleWordsDecode
  decide

end Sys2Proof
end

section
/-! What a step reports, and the two instructions that draw: the obligations ClearScreen, DrawSprite,
DrawTwiceRestores and DisplayDirtyReport. -/

namespace Sys2Proof.Machine

/-! ## The report of a step -/

/-- A step that faults reports the fault. -/
theorem report_of_fault {s : State} {f : Fault} (h : step s = .fault f) :
    report s = some ⟨.fault f, false⟩ := by
  simp only [report, h]

/-- A step whose instruction completes reports what the instruction says (`reportOf`), with the keys the
step sampled. -/
theorem report_of_next {s t : State} {i : Instr} (hd : decode s.fetchWord = .ok i)
    (he : exec i s.beginStep = .next t) : report s = some (reportOf i s.beginStep) := by
  have hstep : step s = .next t := (step_eq_next s t).mpr ⟨i, hd, he⟩
  simp only [report, hstep, State.beginStep_fetchWord, hd]

/-- A report is of a fault, or of an instruction that completed (60_exceptions.md R200). -/
theorem report_cases {s : State} {r : StepReport} (h : report s = some r) :
    (∃ f, step s = .fault f ∧ r = ⟨.fault f, false⟩) ∨
    ∃ i t, decode s.fetchWord = .ok i ∧ exec i s.beginStep = .next t ∧ r = reportOf i s.beginStep := by
  cases hs : step s with
  | fault f =>
    rw [report_of_fault hs] at h
    exact .inl ⟨f, rfl, (Option.some.inj h).symm⟩
  | refused c => simp only [report, hs, reduceCtorEq] at h
  | next t =>
    obtain ⟨i, hd, he⟩ := (step_eq_next s t).mp hs
    rw [report_of_next hd he] at h
    exact .inr ⟨i, t, hd, he, (Option.some.inj h).symm⟩

theorem drawsDisplay_iff (i : Instr) :
    drawsDisplay i = true ↔ i = .cls ∨ ∃ x y n, i = .drw x y n := by
  cases i <;> simp [drawsDisplay]

/-- The wait of Fx0A reports no `display_dirty` and is not `Ok`; for every other instruction the two say
whether it draws (40_framebuffer.md R106). -/
theorem reportOf_displayDirty (i : Instr) (s : State) :
    (reportOf i s).displayDirty = true ↔ (reportOf i s).result = .ok ∧ drawsDisplay i = true := by
  unfold reportOf
  split <;> simp

/-- Settles O23: a fault reports neither, and the fetched word decodes to one instruction only. -/
theorem displayDirtyReport : Obligations.DisplayDirtyReport := by
  intro s r h
  obtain ⟨f, -, rfl⟩ | ⟨i, t, hd, -, rfl⟩ := report_cases h
  · simp
  · simp only [reportOf_displayDirty, drawsDisplay_iff, hd, Except.ok.injEq, exists_eq_left']

/-! ## CLS -/

@[simp] theorem State.pixel_setFb (s : State) (f : Framebuffer) (cx : Fin 64) (cy : Fin 32) :
    (s.setFb f).pixel cx cy = f.pixel cx cy := rfl

/-- Settles O20, by CLS's answer and its frame. -/
theorem clearScreen : Obligations.ClearScreen := by
  refine ⟨rfl, fun s => ⟨_, exec_cls s, fun cx cy => ?_, ?_, ?_⟩, fun s hw => ?_⟩
  · simp only [State.advance_pixel, State.pixel_setFb, Framebuffer.pixel_blank]
  · exact advanced_advance (s.setFb Framebuffer.blank) 2
  · exact (exec_fieldsBut (exec_cls s)).sameBut
  · exact report_of_next (i := .cls) (by rw [hw]; rfl) (exec_cls s.beginStep)

/-! ## DRW -/

/-- Settles O21: the rows drawn are the sprite's, at most 15 of them (`State.drawRows_spec`), and the flag
is written after them. -/
theorem drawSprite : Obligations.DrawSprite := by
  intro x y n s
  obtain ⟨hpixel, hhit⟩ :=
    s.drawRows_spec s.index.toNat (s.v x).toNat (s.v y).toNat n.toNat (by omega)
  refine ⟨_, exec_drw s x y n, fun cx cy => ?_, ?_, ?_, ?_⟩
  · simp only [State.advance_pixel, State.setFlag_pixel, State.pixel_setFb, hpixel]
  · simp only [State.advance_v, State.v_setFlag, if_true, hhit]
  · exact State.toNat_advance _ 2
  · exact (exec_fieldsBut (exec_drw s x y n)).sameBut

/-- A DRW whose coordinates are not in `VF` leaves in place all that its sprite is read from. -/
theorem spriteBit_of_exec_drw {x y n : Nibble} {s t : State} (h : exec (.drw x y n) s = .next t)
    (hx : x ≠ flagReg) (hy : y ≠ flagReg) (cx : Fin 64) (cy : Fin 32) :
    t.spriteBit t.index.toNat (t.v x).toNat (t.v y).toNat n.toNat cx cy =
      s.spriteBit s.index.toNat (s.v x).toNat (s.v y).toNat n.toNat cx cy := by
  have same : FieldsBut [flagReg] [.fb] s t := exec_fieldsBut h
  have hmem (a : Nat) : t.memRead a = s.memRead a := by
    rw [State.memRead, State.memRead, same.mem (by decide)]
  rw [same.index (by decide), same.v x (by simpa using hx), same.v y (by simpa using hy)]
  simp only [State.spriteBit, hmem]

/-- Settles O22: both draws lay the same sprite, so the two XORs cancel, and a sprite bit meets a pixel
that is on in the second draw where it turned that pixel on in the first. -/
theorem drawTwiceRestores : Obligations.DrawTwiceRestores := by
  intro x y n s hx hy
  obtain ⟨t, ht, htpixel, -⟩ := drawSprite x y n s
  obtain ⟨u, hu, hupixel, huflag, -⟩ := drawSprite x y n t
  simp only [spriteBit_of_exec_drw ht hx hy] at hupixel huflag
  refine ⟨t, u, ht, hu, Framebuffer.ext_pixel _ _ fun cx cy => ?_, ?_⟩
  · calc u.pixel cx cy
      _ = (t.pixel cx cy ^^ _) := hupixel cx cy
      _ = s.pixel cx cy := by rw [htpixel, Bool.xor_assoc, Bool.xor_self, Bool.xor_false]
  · rw [huflag]
    refine if_congr (exists_congr fun cx => exists_congr fun cy => and_congr_left fun hbit => ?_) rfl rfl
    rw [htpixel, hbit, Bool.xor_true, Bool.not_eq_true']

end Sys2Proof.Machine
end

section
/-! The arithmetic, the logic and the shifts of family 0x8: the obligations AddWithCarry,
SubtractWithStrictFlag, ShiftRight, ShiftLeft and MoveAndLogic. -/

namespace Sys2Proof.Machine

variable {i : Instr} {s : State} {x : Nibble} {r : Byte} {c : Bool}

/-! ## The two ends of the family (41_alu.md R120) -/

theorem Completes.imp {P Q : State → Prop} (h : Completes i s P) (hPQ : ∀ t, P t → Q t) :
    Completes i s Q :=
  Exists.imp (fun t => And.imp_right (hPQ t)) h

theorem FieldsBut.aluResult (s : State) (x : Nibble) (r : Byte) :
    FieldsBut [x] [] s (s.aluResult x r) :=
  ((FieldsBut.refl _ _ s).setV x r List.mem_cons_self).advance 2

theorem FieldsBut.aluFlagged (s : State) (x : Nibble) (r : Byte) (c : Bool) :
    FieldsBut [x, flagReg] [] s (s.aluFlagged x r c) :=
  (((FieldsBut.refl _ _ s).setV x r (by simp)).setFlag c (by simp)).advance 2

/-- What every instruction of the family that defines no flag does, whatever its result. -/
theorem completes_of_aluResult (h : exec i s = .next (s.aluResult x r)) :
    Completes i s fun t => t.v x = r ∧ Advanced 2 s t ∧ SameBut [x] [] s t := by
  refine ⟨_, h, ?_, State.toNat_advance _ 2, (FieldsBut.aluResult s x r).sameBut⟩
  simp only [State.aluResult, State.advance_v, State.v_setV, if_true]

/-- What every instruction of the family that defines a flag does, whatever its result and flag: the
result stays unless `VF`, written last, is its destination (D11). -/
theorem completes_of_aluFlagged (h : exec i s = .next (s.aluFlagged x r c)) :
    Completes i s fun t => (x ≠ flagReg → t.v x = r) ∧ (t.v flagReg = if c then 1#8 else 0#8) ∧
      Advanced 2 s t ∧ SameBut [x, flagReg] [] s t := by
  refine ⟨_, h, fun hx => ?_, State.v_flagReg_aluFlagged s x r c, State.toNat_advance _ 2,
    (FieldsBut.aluFlagged s x r c).sameBut⟩
  simp only [State.aluFlagged, State.advance_v, State.v_setFlag, if_neg hx, State.v_setV, if_true]

/-! ## The flags and the difference as numbers (10_state.md R22, R23) -/

theorem toNat_flagByte (c : Bool) : (if c then 1#8 else 0#8).toNat = c.toNat := by
  cases c <;> rfl

theorem toNat_lowBitFlag (a : Byte) : (lowBitFlag a).toNat = a.toNat % 2 := by
  rw [lowBitFlag, BitVec.getLsbD, Nat.toNat_testBit, Nat.pow_zero, Nat.div_one]

/-- Bit 7 is the top bit of a byte, so nothing is left above it. -/
theorem toNat_highBitFlag (a : Byte) : (highBitFlag a).toNat = a.toNat / 128 := by
  rw [highBitFlag, BitVec.getLsbD, Nat.toNat_testBit]
  omega

/-- A byte difference as a number: 256 is lent, so that natural subtraction does not stop at 0. -/
theorem toNat_byteSub (a b : Byte) : (a - b).toNat = (a.toNat + 256 - b.toNat) % 256 := by
  rw [BitVec.toNat_sub]
  omega

/-! ## The family's low-nibble key (30_encoding.md R76) -/

/-- A word with a row's bits under mask 0xF00F decodes by that row's key. -/
theorem decode_of_nibbleKeyMask {w v : Word} {key : Nibble} (hv : v = encXyn 0x8#4 0#4 0#4 key)
    (hw : w &&& 0xF00F#16 = v) : decode w = decodeAlu (xField w) (yField w) key := by
  obtain ⟨hop, hkey⟩ := (and_nibbleKeyMask w v 0x8#4 key hv).mp hw
  rw [decode_of_alu hop, hkey]

/-! ## The obligations -/

/-- Settles O38: the result's 8 bits are the sum mod 256, and the carry is read from the unbounded sum. -/
theorem addWithCarry : Obligations.AddWithCarry := by
  intro x y s
  refine (completes_of_aluFlagged (exec_addReg s x y)).imp fun t ⟨hsum, hflag, rest⟩ =>
    ⟨fun hx => ?_, ?_, rest⟩
  · rw [hsum hx, BitVec.toNat_ofNat]
  · simpa only [carryFlag, decide_eq_true_eq] using hflag

/-- SUB and SUBN are this one difference and strict comparison (C1), with the operands exchanged. -/
theorem completes_of_difference {a b : Byte}
    (h : exec i s = .next (s.aluFlagged x (a - b) (greaterFlag a b))) :
    Completes i s fun t => (x ≠ flagReg → (t.v x).toNat = (a.toNat + 256 - b.toNat) % 256) ∧
      (t.v flagReg = if a.toNat > b.toNat then 1#8 else 0#8) ∧
      Advanced 2 s t ∧ SameBut [x, flagReg] [] s t := by
  refine (completes_of_aluFlagged h).imp fun t ⟨hdiff, hflag, rest⟩ => ⟨fun hx => ?_, ?_, rest⟩
  · rw [hdiff hx, toNat_byteSub]
  · simpa only [greaterFlag, decide_eq_true_eq] using hflag

/-- Settles O39: both instructions are a difference with its strict comparison. -/
theorem subtractWithStrictFlag : Obligations.SubtractWithStrictFlag := fun x y s =>
  ⟨completes_of_difference (exec_sub s x y), completes_of_difference (exec_subn s x y)⟩

/-- Settles O40: the decoder's row for key 6 does not name `y`, and half of a byte is a byte. -/
theorem shiftRight : Obligations.ShiftRight := by
  refine ⟨fun w hw => decode_of_nibbleKeyMask (key := 0x6#4) rfl hw, fun x s => ?_⟩
  refine (completes_of_aluFlagged (exec_shr s x)).imp fun t ⟨hhalf, hflag, rest⟩ =>
    ⟨fun hx => ?_, ?_, rest⟩
  · rw [hhalf hx, BitVec.toNat_ofNat]
    omega
  · rw [hflag, toNat_flagByte, toNat_lowBitFlag]

/-- Settles O41: the decoder's row for key E does not name `y`, and the flag is the bit the doubling
loses. -/
theorem shiftLeft : Obligations.ShiftLeft := by
  refine ⟨fun w hw => decode_of_nibbleKeyMask (key := 0xE#4) rfl hw, fun x s => ?_⟩
  refine (completes_of_aluFlagged (exec_shl s x)).imp fun t ⟨hdouble, hflag, rest⟩ =>
    ⟨fun hx => ?_, ?_, rest⟩
  · rw [hdouble hx, BitVec.toNat_ofNat]
  · rw [hflag, toNat_flagByte, toNat_highBitFlag]

/-- Settles O37: the move is the family's end without a flag, and the logic operators go bit by bit. -/
theorem moveAndLogic : Obligations.MoveAndLogic := by
  intro x y s
  refine ⟨completes_of_aluResult (exec_ldReg s x y), ?_, ?_, ?_⟩
  · exact (completes_of_aluResult (exec_orReg s x y)).imp fun t ⟨hv, rest⟩ =>
      ⟨fun k => by rw [hv, BitVec.getElem_or], rest⟩
  · exact (completes_of_aluResult (exec_andReg s x y)).imp fun t ⟨hv, rest⟩ =>
      ⟨fun k => by rw [hv, BitVec.getElem_and], rest⟩
  · exact (completes_of_aluResult (exec_xorReg s x y)).imp fun t ⟨hv, rest⟩ =>
      ⟨fun k => by rw [hv, BitVec.getElem_xor], rest⟩

end Sys2Proof.Machine
end

section
/-! Family 0xF: the timers, the index register, the block transfers, and the key wait within a step and
over a schedule. The obligations TimerMoves, IndexArithmetic, DecimalDigitsStored, RegistersStored,
RegistersLoaded, StoreThenLoadRestores, KeyWait and KeyWaitEndsWithAPress. -/

namespace Sys2Proof.Machine

/-! ## The end of the family's instructions (42_misc.md R140) -/

/-- An instruction that ends past itself moves `PC` on by 2 and keeps its frame. -/
theorem advanced_and_sameBut {i : Instr} {s u : State} (h : exec i s = .next (u.advance 2))
    (hpc : u.pc = s.pc) :
    Advanced 2 s (u.advance 2) ∧ SameBut (writesRegs i) (writesParts i) s (u.advance 2) := by
  refine ⟨?_, (exec_fieldsBut h).sameBut⟩
  rw [Advanced, State.toNat_advance, hpc]

/-! ## Timers and the index register -/

/-- Settles O43: each instruction is one write of the byte it moves. -/
theorem timerMoves : Obligations.TimerMoves := by
  intro x s
  refine ⟨⟨_, exec_ldFromDt s x, ?_, advanced_and_sameBut (exec_ldFromDt s x) rfl⟩,
    ⟨_, exec_ldToDt s x, rfl, advanced_and_sameBut (exec_ldToDt s x) rfl⟩,
    ⟨_, exec_ldToSt s x, rfl, advanced_and_sameBut (exec_ldToSt s x) rfl⟩⟩
  rw [State.advance_v, State.v_setV, if_pos rfl]

/-- Settles O45: the index register's 16 bits are the sum mod 65536, and five times a byte fits in them. -/
theorem indexArithmetic : Obligations.IndexArithmetic := by
  intro x s
  refine ⟨⟨_, exec_addI s x, ?_, advanced_and_sameBut (exec_addI s x) rfl⟩,
    ⟨_, exec_ldFont s x, ?_, advanced_and_sameBut (exec_ldFont s x) rfl⟩⟩
  · rw [State.advance_index, State.setIndex_index, BitVec.toNat_ofNat]
  · rw [State.advance_index, State.setIndex_index, BitVec.toNat_ofNat]
    omega

/-! ## Block transfers -/

@[simp] theorem State.loadRegs_pc (s : State) (a n : Nat) : (s.loadRegs a n).pc = s.pc := by
  rw [State.loadRegs_eq]

/-- Settles O46: the three digits are the bytes stored, and BCD stores no others (`memoryWriters`). -/
theorem decimalDigitsStored : Obligations.DecimalDigitsStored := by
  intro x s
  have hexec := exec_bcd s x
  obtain ⟨hhundreds, htens, hunits⟩ :=
    s.toNat_memRead_writeBytes_decimalDigits s.index.toNat (s.v x)
  exact ⟨_, hexec, hhundreds, htens, hunits, memoryWriters (.bcd x) s _ hexec,
    advanced_and_sameBut hexec (s.writeBytes_pc _ _)⟩

/-- Settles O47: `x + 1` registers are at most 16, and STORE stores no other bytes (`memoryWriters`). -/
theorem registersStored : Obligations.RegistersStored := by
  intro x s
  have hexec := exec_store s x
  obtain ⟨hstored, -⟩ := s.memRead_storeRegs s.index.toNat (x.toNat + 1) x.isLt
  refine ⟨_, hexec, fun k hk => ?_, fun a ha => ?_, advanced_and_sameBut hexec (s.storeRegs_pc _ _)⟩
  · rw [State.advance_memRead, hstored k.toNat (Nat.lt_succ_of_le hk), BitVec.ofNat_toNat,
      BitVec.setWidth_eq]
  · exact memoryWriters (.store x) s _ hexec a fun k hk => ha k (Nat.le_of_lt_succ hk)

/-- Settles O48: what registers hold after the first `x + 1` were loaded (`State.v_loadRegs`). -/
theorem registersLoaded : Obligations.RegistersLoaded := by
  intro x s
  have hexec := exec_load s x
  refine ⟨_, hexec, fun k => ?_, advanced_and_sameBut hexec (s.loadRegs_pc _ _)⟩
  simp only [State.advance_v, s.v_loadRegs _ _ x.isLt, Nat.lt_succ_iff]

/-! ## A store and a load after it -/

theorem FieldsBut.memRead {xs : List Nibble} {ps : List Part} {s t : State} (h : FieldsBut xs ps s t)
    (hp : .mem ∉ ps) (a : Nat) : t.memRead a = s.memRead a := by
  rw [State.memRead, State.memRead, h.mem hp]

/-- What two changes in a row may alter: what either may. -/
theorem FieldsBut.trans {xs ys : List Nibble} {ps qs : List Part} {s t u : State}
    (hst : FieldsBut xs ps s t) (htu : FieldsBut ys qs t u) :
    FieldsBut (xs ++ ys) (ps ++ qs) s u := by
  have neither {α : Type} {a : α} {l m : List α} (h : a ∉ l ++ m) : a ∉ l ∧ a ∉ m :=
    not_or.mp (mt List.mem_append.mpr h)
  constructor
  case v => exact fun j hj => (htu.v j (neither hj).2).trans (hst.v j (neither hj).1)
  case index => exact fun hp => (htu.index (neither hp).2).trans (hst.index (neither hp).1)
  case mem => exact fun hp => (htu.mem (neither hp).2).trans (hst.mem (neither hp).1)
  case stack =>
    intro hp
    obtain ⟨hsp, hstack⟩ := htu.stack (neither hp).2
    rw [hsp, hstack]
    exact hst.stack (neither hp).1
  case dt => exact fun hp => (htu.dt (neither hp).2).trans (hst.dt (neither hp).1)
  case st => exact fun hp => (htu.st (neither hp).2).trans (hst.st (neither hp).1)
  case fb => exact fun hp => (htu.fb (neither hp).2).trans (hst.fb (neither hp).1)
  case random =>
    intro hp
    obtain ⟨hin, hcount⟩ := htu.random (neither hp).2
    rw [hin, hcount]
    exact hst.random (neither hp).1
  case keys => exact htu.keys.trans hst.keys
  case gaps => exact htu.gaps.trans hst.gaps

/-- Settles O49: LOAD reads from the same `I` the bytes STORE wrote there. -/
theorem storeThenLoadRestores : Obligations.StoreThenLoadRestores := by
  intro x s
  obtain ⟨t, ht, hstored, -⟩ := registersStored x s
  obtain ⟨u, hu, hloaded, -⟩ := registersLoaded x t
  have hst : FieldsBut [] [.mem] s t := exec_fieldsBut ht
  have htu : FieldsBut (writesRegs (.load x)) [] t u := exec_fieldsBut hu
  have hregs (k : Nibble) : u.v k = s.v k := by
    rw [hloaded k, hst.index (by decide)]
    split
    · next hk => exact hstored k hk
    · exact hst.v k List.not_mem_nil
  exact ⟨t, u, ht, hu, FieldsBut.sameBut { hst.trans htu with v := fun k _ => hregs k },
    htu.memRead (by decide)⟩

/-! ## The key wait (42_misc.md R142) -/

variable {s : State} {x : Nibble}

/-- No key is pressed, over key numbers as the obligations write them. -/
theorem State.lowestKey_eq_none_iff_released :
    s.lowestKey = none ↔ ∀ k : Fin 16, s.keys[k.val] = false := by
  rw [State.lowestKey_eq_none, Fin.forall_iff]

theorem exec_ldKey_of_released (h : ∀ k : Fin 16, s.keys[k.val] = false) :
    exec (.ldKey x) s = .next s := by
  rw [exec_ldKey, State.lowestKey_eq_none_iff_released.mpr h]

theorem exec_ldKey_of_pressed {k : Fin 16} (hk : s.keys[k.val] = true)
    (hlow : ∀ j : Fin 16, j < k → s.keys[j.val] = false) :
    exec (.ldKey x) s = .next ((s.setV x (BitVec.ofNat 8 k.val)).advance 2) := by
  have hkey : s.lowestKey = some k.val :=
    (s.lowestKey_eq_some k.val).mpr ⟨k.isLt, hk, fun j hj => hlow ⟨j, hj.trans k.isLt⟩ hj⟩
  rw [exec_ldKey, hkey]

theorem reportOf_ldKey_eq_awaitingInput :
    reportOf (.ldKey x) s = ⟨.awaitingInput, false⟩ ↔ s.lowestKey = none := by
  simp [reportOf, awaitsInput]

/-- Fx0A completes with a key pressed or without. -/
theorem exists_exec_ldKey (s : State) (x : Nibble) : ∃ t, exec (.ldKey x) s = .next t := by
  rw [exec_ldKey]
  cases s.lowestKey with
  | none => exact ⟨_, rfl⟩
  | some k => exact ⟨_, rfl⟩

/-- Settles O44: the answer is by the lowest pressed key of the state, the report by that of the state
after the gap. -/
theorem keyWait : Obligations.KeyWait := by
  refine ⟨fun x s => exec_ldKey_of_released, fun x s k hk hlow => ?_, fun x s hdecode => ?_⟩
  · have hexec := exec_ldKey_of_pressed (x := x) hk hlow
    refine ⟨_, hexec, ?_, advanced_and_sameBut hexec rfl⟩
    rw [State.advance_v, State.v_setV, if_pos rfl, BitVec.toNat_ofNat]
    omega
  · obtain ⟨t, ht⟩ := exists_exec_ldKey s.beginStep x
    rw [report_of_next hdecode ht, Option.some_inj, reportOf_ldKey_eq_awaitingInput,
      State.lowestKey_eq_none_iff_released]

/-! ## The key wait over a schedule -/

@[simp] theorem State.beginStep_v (s : State) (y : Nibble) : s.beginStep.v y = s.v y := by
  simp only [State.v, State.beginStep_regs]

theorem State.beginStep_keys_of_cons {gap : Gap} {rest : List Gap} (h : s.gaps = gap :: rest) :
    s.beginStep.keys = gap.keys := by
  rw [State.beginStep_of_cons s h]
  rfl

/-- Settles O60, by induction on the waiting gaps: a step after one of them changes only what its gap
does, and the step after the pressing gap takes the key. -/
theorem keyWaitEndsWithAPress : Obligations.KeyWaitEndsWithAPress := by
  intro x s waits g k hdecode hgaps hwaits hk hlow
  induction waits generalizing s with
  | nil =>
    have hkeys : s.beginStep.keys = g.keys := State.beginStep_keys_of_cons hgaps
    rw [← hkeys] at hk hlow
    obtain ⟨-, htakes, -⟩ := keyWait
    obtain ⟨t, ht, hv, hpc, -⟩ := htakes x s.beginStep k hk hlow
    have same : FieldsBut [x] [] s.beginStep t := exec_fieldsBut ht
    have hstep : step s = .next t := (step_eq_next s t).mpr ⟨_, hdecode, ht⟩
    obtain ⟨hsp, hstack⟩ := same.stack (by decide)
    refine ⟨t, run_succ_of_next s t 0 hstep, hv, ?_, fun j hj => ?_, fun a => ?_, ?_, ?_, ?_, ?_, ?_⟩
    · simpa only [Advanced, State.beginStep_pc] using hpc
    · rw [same.v j (by simpa using hj), State.beginStep_v]
    · rw [same.memRead (by decide), State.beginStep_memRead]
    · rw [same.index (by decide), State.beginStep_index]
    · rw [hsp, State.beginStep_sp]
    · rw [hstack, State.beginStep_stack]
    · rw [same.fb (by decide), State.beginStep_fb]
    · rw [same.keys, hkeys]
  | cons gap waits ih =>
    have hreleased : ∀ j : Fin 16, s.beginStep.keys[j.val] = false := by
      rw [State.beginStep_keys_of_cons hgaps]
      exact hwaits gap List.mem_cons_self
    have hstep : step s = .next s.beginStep :=
      (step_eq_next s s.beginStep).mpr ⟨_, hdecode, exec_ldKey_of_released hreleased⟩
    obtain ⟨t, hrun, rest⟩ := ih s.beginStep (by rwa [State.beginStep_fetchWord])
      (by rw [State.beginStep_gaps, hgaps]; rfl) fun h hh => hwaits h (List.mem_cons_of_mem _ hh)
    refine ⟨t, (run_succ_of_next s s.beginStep _ hstep).trans hrun, ?_⟩
    simpa only [Advanced, State.beginStep_pc, State.beginStep_v, State.beginStep_memRead,
      State.beginStep_index, State.beginStep_sp, State.beginStep_stack, State.beginStep_fb] using rest

end Sys2Proof.Machine
end

section
/-! Dispatch and control flow: what a step executes and where it leaves the program counter, jumps, calls,
returns and skips. The obligations NoStepIsRefused, ProgramCounterPolicy, CallPushesItsAddress,
ReturnGoesPastTheCall, CallThenReturn, RegisterSkips, StepRunsDecodedInstruction, JumpGoesToAddress,
ComputedJump, ImmediateSkips and KeySkips. -/

namespace Sys2Proof.Machine

variable {s : State}

/-! ## The step (43_dispatch_control_flow.md R160) -/

theorem step_eq_exec {i : Instr} (h : decode s.fetchWord = .ok i) : step s = exec i s.beginStep := by
  simp only [step, State.beginStep_fetchWord, h]

theorem step_ne_refused (s : State) (r : Refusal) : step s ≠ .refused r := by
  cases hd : decode s.fetchWord with
  | ok i =>
    rw [step_eq_exec hd]
    exact exec_ne_refused s.beginStep i r
  | error e =>
    rw [(step_eq_fault s _).mpr (.inl ⟨e, hd, rfl⟩)]
    nofun

/-- Settles O13: the third kind of answer is never given (`step_ne_refused`). -/
theorem noStepIsRefused : Obligations.NoStepIsRefused := by
  intro s
  cases h : step s with
  | next t => exact .inl ⟨t, rfl⟩
  | fault f => exact .inr ⟨f, rfl⟩
  | refused r => exact absurd h (step_ne_refused s r)

/-- Settles O9: the fetched word is the word of the two bytes, and the gap's ticks are one write of each
timer (`State.ticks_eq`). -/
theorem stepRunsDecodedInstruction : Obligations.StepRunsDecodedInstruction := by
  intro s i h
  refine ⟨step_eq_exec ((decodeBytes_pair _ _ i).mp h), s.beginStep_of_nil, fun gap rest hgaps => ?_⟩
  rw [s.beginStep_of_cons hgaps, s.ticks_eq]
  rfl

/-! ## The program counter (43_dispatch_control_flow.md R161) -/

/-- An address field is below 4096, so it is its own remainder. -/
theorem State.toNat_setPc_addr (s : State) (nnn : Addr) : (s.setPc nnn.toNat).pc.toNat = nnn.toNat := by
  rw [State.toNat_setPc, Nat.mod_eq_of_lt nnn.isLt]

theorem advanced_of_pc_eq {u : State} (hpc : u.pc = s.pc) (k : Nat) : Advanced k s (u.advance k) := by
  rw [Advanced, State.toNat_advance, hpc]

/-- A skip, by what its condition says (D4). -/
theorem advanced_skipIf {c : Bool} {P : Prop} [Decidable P] (hc : c = true ↔ P) :
    Advanced (if P then 4 else 2) s (s.skipIf c) := by
  simp only [Advanced, State.toNat_skipIf, hc]

/-- Settles O14: the transfers and the skips write the program counter by their own rules, Fx0A without a
key writes nothing, and every other instruction ends past itself. -/
theorem programCounterPolicy : Obligations.ProgramCounterPolicy := by
  intro i s t h
  cases i
  case call nnn =>
    obtain ⟨-, rfl⟩ := exec_call_inv s nnn t h
    exact State.toNat_setPc_addr _ nnn
  case ret =>
    obtain ⟨hsp, rfl⟩ := exec_ret_inv s t h
    exact ⟨hsp, State.toNat_setPc _ _⟩
  case ldKey x =>
    obtain ⟨hnone, rfl⟩ | ⟨k, hsome, rfl⟩ := exec_ldKey_inv s x t h
    · have hreleased := State.lowestKey_eq_none_iff_released.mp hnone
      simp [hreleased]
    · obtain ⟨hk, hpressed, -⟩ := (s.lowestKey_eq_some k).mp hsome
      have hex : ∃ j : Fin 16, s.keys[j.val] = true := ⟨⟨k, hk⟩, hpressed⟩
      simp only [hex, if_true]
      exact advanced_of_pc_eq (s.setV_pc _ _) 2
  all_goals cases h
  case jp nnn => exact s.toNat_setPc_addr nnn
  case jpV0 => exact s.toNat_setPc _
  case seImm | sneImm | seReg | sneReg => exact advanced_skipIf (by simp)
  case skp | sknp => exact advanced_skipIf (by simp [State.keyDown_keyNumber])
  case bcd => exact advanced_of_pc_eq (s.writeBytes_pc _ _) 2
  case store => exact advanced_of_pc_eq (s.storeRegs_pc _ _) 2
  case load => exact advanced_of_pc_eq (s.loadRegs_pc _ _) 2
  all_goals exact advanced_of_pc_eq rfl 2

/-! ## Jumps -/

/-- Settles O24: the decoder's row for family 0x1, and the frame of JP. -/
theorem jumpGoesToAddress : Obligations.JumpGoesToAddress := by
  refine ⟨fun w hw => ?_, fun nnn s => ?_⟩
  · simp only [decode, (and_familyMask w 0x1000#16 0x1#4 rfl).mp hw]
  · exact ⟨_, exec_jp s nnn, s.toNat_setPc_addr nnn, (exec_fieldsBut (exec_jp s nnn)).sameBut⟩

/-- Settles O29: the decoder's row for family 0xB, and the frame of JP V0. -/
theorem computedJump : Obligations.ComputedJump := by
  refine ⟨fun w hw => ?_, fun nnn s => ?_⟩
  · simp only [decode, (and_familyMask w 0xB000#16 0xB#4 rfl).mp hw]
  · exact ⟨_, exec_jpV0 s nnn, s.toNat_setPc _, (exec_fieldsBut (exec_jpV0 s nnn)).sameBut⟩

/-! ## CALL and RET -/

/-- Settles O25: the entry written is the one at `SP`, so the others are kept. -/
theorem callPushesItsAddress : Obligations.CallPushesItsAddress := by
  refine fun nnn s => ⟨fun hsp => ?_, exec_call_of_full s nnn⟩
  have hexec := exec_call_of_lt s nnn hsp
  refine ⟨_, hexec, State.toNat_setPc_addr _ nnn, rfl, fun j => ?_, (exec_fieldsBut hexec).sameBut⟩
  simp only [State.setPc_stack, Vector.getElem_set, eq_comm]

/-- Settles O26: RET writes `SP` and the program counter only. -/
theorem returnGoesPastTheCall : Obligations.ReturnGoesPastTheCall := by
  intro s hsp
  have hexec := exec_ret_of_pos s hsp
  exact ⟨_, hexec, State.toNat_setPc _ _, rfl, rfl, (exec_fieldsBut hexec).sameBut⟩

theorem FieldsBut.mono {xs ys : List Nibble} {ps qs : List Part} {t : State} (h : FieldsBut xs ps s t)
    (hx : xs ⊆ ys) (hp : ps ⊆ qs) : FieldsBut ys qs s t where
  v j hj := h.v j (mt (@hx j) hj)
  index hq := h.index (mt (@hp _) hq)
  mem hq := h.mem (mt (@hp _) hq)
  stack hq := h.stack (mt (@hp _) hq)
  dt hq := h.dt (mt (@hp _) hq)
  st hq := h.st (mt (@hp _) hq)
  fb hq := h.fb (mt (@hp _) hq)
  random hq := h.random (mt (@hp _) hq)
  keys := h.keys
  gaps := h.gaps

/-- Settles O28: RET pops the entry CALL pushed, which is the call's address, and the entries below it are
the ones before. -/
theorem callThenReturn : Obligations.CallThenReturn := by
  intro nnn s hsp
  obtain ⟨hcall, -⟩ := callPushesItsAddress nnn s
  obtain ⟨t, ht, -, htsp, htstack, -⟩ := hcall hsp
  obtain ⟨u, hu, hupc, husp, hustack, -⟩ := returnGoesPastTheCall t (by omega)
  have hst : FieldsBut [] [.stack] s t := exec_fieldsBut ht
  have htu : FieldsBut [] [.stack] t u := exec_fieldsBut hu
  have hback : t.sp.val - 1 = s.sp.val := by omega
  have htop : t.stack[s.sp.val] = s.pc := (htstack ⟨s.sp.val, hsp⟩).trans (if_pos rfl)
  refine ⟨t, u, ht, hu, ?_, Fin.ext (husp.trans hback), fun j hj => ?_,
    ((hst.trans htu).mono (by simp) (by simp)).sameBut⟩
  · simpa only [Advanced, hback, htop] using hupc
  · rw [hustack, htstack j, if_neg hj.ne]

/-! ## Skips -/

/-- What every conditional skip does, whatever its condition. -/
theorem completes_of_skipIf {i : Instr} {c : Bool} {P : Prop} [Decidable P]
    (h : exec i s = .next (s.skipIf c)) (hc : c = true ↔ P) :
    Completes i s fun t => Advanced (if P then 4 else 2) s t ∧ SameBut [] [] s t :=
  ⟨_, h, advanced_skipIf hc, ((FieldsBut.refl [] [] s).skipIf c).sameBut⟩

/-- The same for a skip whose condition is a negation. -/
theorem completes_of_skipIf_not {i : Instr} {c : Bool} {P : Prop} [Decidable P]
    (h : exec i s = .next (s.skipIf c)) (hc : c = true ↔ ¬P) :
    Completes i s fun t => Advanced (if P then 2 else 4) s t ∧ SameBut [] [] s t := by
  simpa only [ite_not] using completes_of_skipIf h hc

/-- Settles O30, by the two comparisons. -/
theorem immediateSkips : Obligations.ImmediateSkips := fun x kk s =>
  ⟨completes_of_skipIf (exec_seImm s x kk) beq_iff_eq,
    completes_of_skipIf_not (exec_sneImm s x kk) bne_iff_ne⟩

/-- Settles O31: the decoder's rows do not name the low nibble, and a register equals itself. -/
theorem registerSkips : Obligations.RegisterSkips := by
  refine ⟨fun w hw => ?_, fun w hw => ?_, fun x y s => ?_⟩
  · simp only [decode, (and_familyMask w 0x5000#16 0x5#4 rfl).mp hw]
  · simp only [decode, (and_familyMask w 0x9000#16 0x9#4 rfl).mp hw]
  · have hsame : x = y ∨ s.v x = s.v y ↔ s.v x = s.v y := or_iff_right_of_imp (congrArg s.v)
    simp only [hsame]
    exact ⟨completes_of_skipIf (exec_seReg s x y) beq_iff_eq,
      completes_of_skipIf_not (exec_sneReg s x y) bne_iff_ne⟩

/-- Settles O32: the key tested is the one `State.keyDown_keyNumber` names. -/
theorem keySkips : Obligations.KeySkips := by
  intro x s
  have hkey : s.keyDown (s.keyNumber x) = true ↔ s.keys[(s.v x).toNat % 16] = true := by
    rw [s.keyDown_keyNumber x]
  refine ⟨completes_of_skipIf (exec_skp s x) hkey, completes_of_skipIf_not (exec_sknp s x) ?_⟩
  rw [← hkey, Bool.not_eq_true', Bool.not_eq_true]

end Sys2Proof.Machine
end

section
/-! The immediates, the index load and the random byte: the obligations LoadImmediate,
AddImmediateWithoutFlag, LoadIndex and RandomByteAndMask. -/

namespace Sys2Proof.Machine

variable {s : State}

/-! ## Immediates (44_immediate_index_random.md R190, R191)

Both end as family 0x8's instructions without a flag do: one register write and `next(2)`. -/

/-- Settles O33: the decoder's row for family 0x6, and one register write. -/
theorem loadImmediate : Obligations.LoadImmediate := by
  refine ⟨fun w hw => ?_, fun x kk s => completes_of_aluResult (exec_ldImm s x kk)⟩
  simp only [decode, (and_familyMask w 0x6000#16 0x6#4 rfl).mp hw]

/-- Settles O34: the decoder's row for family 0x7, and one register write, of the sum's low 8 bits. -/
theorem addImmediateWithoutFlag : Obligations.AddImmediateWithoutFlag := by
  refine ⟨fun w hw => ?_, fun x kk s => ?_⟩
  · simp only [decode, (and_familyMask w 0x7000#16 0x7#4 rfl).mp hw]
  · exact (completes_of_aluResult (exec_addImm s x kk)).imp fun t ⟨hsum, rest⟩ =>
      ⟨by rw [hsum, BitVec.toNat_ofNat], rest⟩

/-! ## The index register (R192) -/

/-- Settles O35: the decoder's row for family 0xA, and a 12-bit address is the same number in 16 bits. -/
theorem loadIndex : Obligations.LoadIndex := by
  refine ⟨fun w hw => ?_, fun nnn s => ?_⟩
  · simp only [decode, (and_familyMask w 0xA000#16 0xA#4 rfl).mp hw]
  · have hexec := exec_ldI s nnn
    refine ⟨_, hexec, ?_, advanced_and_sameBut hexec rfl⟩
    rw [State.advance_index, State.setIndex_index, BitVec.toNat_setWidth_of_le (by decide)]

/-! ## The random byte (R193, D17) -/

theorem State.randomSample_of_cons {b : Byte} {rest : List Byte} (h : s.randomIn = b :: rest) :
    s.randomSample = b := by
  rw [State.randomSample, h]

theorem State.randomSample_of_nil (h : s.randomIn = []) :
    s.randomSample = Config.randomByte s.randomCount := by
  rw [State.randomSample, h]

/-- What RND does, wherever its byte comes from. -/
theorem completes_rnd (s : State) (x : Nibble) (kk : Byte) : Completes (.rnd x kk) s fun t =>
    t.v x = s.randomSample &&& kk ∧ t.randomIn = s.randomIn.tail ∧
    t.randomCount = s.randomCount + 1 ∧ Advanced 2 s t ∧ SameBut [x] [.random] s t := by
  have hexec := exec_rnd s x kk
  refine ⟨_, hexec, ?_, rfl, rfl, advanced_and_sameBut hexec rfl⟩
  rw [State.advance_v, State.v_setV, if_pos rfl]

/-- Settles O36: the sample and what is left of the queue, with a byte queued and with none. -/
theorem randomByteAndMask : Obligations.RandomByteAndMask := by
  refine fun x kk s => ⟨fun b rest hqueue => ?_, fun hqueue => ?_⟩
  · simpa only [State.randomSample_of_cons hqueue, hqueue, List.tail_cons] using completes_rnd s x kk
  · simpa only [State.randomSample_of_nil hqueue, hqueue, List.tail_nil] using completes_rnd s x kk

end Sys2Proof.Machine
end

section
/-! Faults, the report of a step, and what the environment does between steps: the obligations
IllegalWordRaisesUnknownOpcode, OnlyThreeFaults, ReturnOnEmptyStackFaults, StepResultReport,
EnvironmentKeepsInvariant and ImageLoadedAtEntryPoint. -/

namespace Sys2Proof

variable {w : Word} {i : Instr}

/-! ## Legal words, and the words of a decoded instruction -/

theorem legalWord_eq_true : legalWord w = true ↔ ∃ i, decode w = .ok i := by
  rw [legalWord, List.any_eq_true]
  constructor
  · rintro ⟨r, hr, hs⟩
    obtain ⟨i, hi, -⟩ := decode_of_selects hr hs
    exact ⟨i, hi⟩
  · rintro ⟨i, hi⟩
    obtain ⟨r, hr, hs, -⟩ := selects_of_decode hi
    exact ⟨r, hr, hs⟩

theorem legalWord_eq_false : legalWord w = false ↔ ∃ e, decode w = .error e := by
  rw [← Bool.not_eq_true, legalWord_eq_true]
  cases decode w <;> simp

/-- The family is among the bits the decoder reads. -/
theorem opField_encode_of_decode (h : decode w = .ok i) : opField (encode i) = opField w := by
  rw [encodeUndoesDecode w i h, opField_and, opField_careMask, Nibble.and_F]

/-- Outside the families with ignored bits (30_encoding.md R80) only the canonical word decodes to an
instruction. -/
theorem encode_eq_of_decode (h : decode w = .ok i) (hk : opField (encode i) ∉ [0x5#4, 0x8#4, 0x9#4]) :
    encode i = w := by
  rw [encodeUndoesDecode w i h, and_careMask_of_op (opField_encode_of_decode h).symm hk]

end Sys2Proof

namespace Sys2Proof.Machine

variable {s : State}

/-! ## Faults (60_exceptions.md section 2) -/

/-- What a step that faults can answer: one of the three faults, each under its condition, with the
address and the fetched word (60_exceptions.md R201). -/
theorem step_fault_cases {f : Fault} (h : step s = .fault f) :
    (legalWord s.fetchWord = false ∧ f = .unknownOpcode s.pc s.fetchWord) ∨
    (s.fetchWord = 0x00EE#16 ∧ s.sp.val = 0 ∧ f = .callStackUnderflow s.pc s.fetchWord) ∨
    (opField s.fetchWord = 0x2#4 ∧ s.sp.val = 16 ∧ f = .callStackOverflow s.pc s.fetchWord) := by
  obtain ⟨e, hd, rfl⟩ | ⟨i, hd, he⟩ := (step_eq_fault s f).mp h
  · exact .inl ⟨legalWord_eq_false.mpr ⟨e, hd⟩, rfl⟩
  · rw [← State.beginStep_pc, ← State.beginStep_sp]
    obtain ⟨rfl, hsp, rfl⟩ | ⟨nnn, rfl, hsp, rfl⟩ := exec_fault_inv _ i f he
    · have hw : 0x00EE#16 = s.fetchWord := encode_eq_of_decode hd (by decide)
      exact .inr (.inl ⟨hw.symm, hsp, by rw [hw]⟩)
    · have hop : opField (encode (.call nnn)) = 0x2#4 := opField_encNnn ..
      have hw := encode_eq_of_decode hd (by rw [hop]; decide)
      exact .inr (.inr ⟨hw ▸ hop, hsp, by rw [hw]⟩)

theorem step_of_illegal (h : legalWord s.fetchWord = false) :
    step s = .fault (.unknownOpcode s.pc s.fetchWord) := by
  obtain ⟨e, hd⟩ := legalWord_eq_false.mp h
  exact (step_eq_fault s _).mpr (.inl ⟨e, hd, rfl⟩)

/-- Settles O11: of the three faults (`step_fault_cases`) only an illegal word's is `UnknownOpcode`, and
the recovery is one `next(2)`. -/
theorem illegalWordRaisesUnknownOpcode : Obligations.IllegalWordRaisesUnknownOpcode := by
  refine ⟨fun s a w => ⟨fun h => ?_, ?_⟩, fun s => ⟨advanced_advance s 2, ?_⟩⟩
  · obtain ⟨hill, hf⟩ | ⟨-, -, hf⟩ | ⟨-, -, hf⟩ := step_fault_cases h
    · obtain ⟨rfl, rfl⟩ := Fault.unknownOpcode.inj hf
      exact ⟨rfl, rfl, hill⟩
    · cases hf
    · cases hf
  · rintro ⟨rfl, rfl, hill⟩
    exact step_of_illegal hill
  · exact ((FieldsBut.refl [] [] s).advance 2).sameBut

/-- Settles O12: each of the three faults, with its code. -/
theorem onlyThreeFaults : Obligations.OnlyThreeFaults := by
  intro s f h
  obtain ⟨hill, rfl⟩ | ⟨hw, hsp, rfl⟩ | ⟨hop, hsp, rfl⟩ := step_fault_cases h
  · exact ⟨rfl, rfl, .inl ⟨rfl, hill⟩⟩
  · exact ⟨rfl, rfl, .inr (.inl ⟨rfl, hw, hsp⟩)⟩
  · exact ⟨rfl, rfl, .inr (.inr ⟨rfl, hop, hsp⟩)⟩

/-- Settles O27: with an entry in use RET completes, and the gap before the step leaves `SP` and `PC`. -/
theorem returnOnEmptyStackFaults : Obligations.ReturnOnEmptyStackFaults := by
  refine fun s => ⟨⟨exec_ret_of_zero s, fun h => ?_⟩, fun hw hsp => ?_⟩
  · by_contra hsp
    rw [exec_ret_of_pos s (Nat.pos_of_ne_zero hsp)] at h
    cases h
  · have hd : decode s.fetchWord = .ok .ret := by rw [hw]; rfl
    rw [step_eq_exec hd, exec_ret_of_zero s.beginStep (by rwa [State.beginStep_sp]), State.beginStep_pc]

/-! ## The result of a step (60_exceptions.md R200, R214) -/

theorem awaitsInput_iff {i : Instr} :
    awaitsInput i s = true ↔ (∃ x, i = .ldKey x) ∧ ∀ k : Fin 16, s.keys[k.val] = false := by
  rw [← State.lowestKey_eq_none_iff_released]
  cases i <;> simp [awaitsInput]

theorem reportOf_result_ne_fault (i : Instr) (s : State) (f : Fault) :
    (reportOf i s).result ≠ .fault f := by
  unfold reportOf
  split <;> simp

theorem reportOf_result_eq_awaitingInput {i : Instr} :
    (reportOf i s).result = .awaitingInput ↔ awaitsInput i s = true := by
  unfold reportOf
  split <;> simp [*]

/-- A step that executes Fx0A does not fault. -/
theorem exists_step_of_ldKey {x : Nibble} (h : decode s.fetchWord = .ok (.ldKey x)) :
    ∃ t, step s = .next t := by
  rw [step_eq_exec h]
  exact exists_exec_ldKey s.beginStep x

/-- Settles O58: a step that faults reports the fault and did not execute Fx0A; one that completes reports
what its instruction says, `AwaitingInput` where Fx0A waits. -/
theorem stepResultReport : Obligations.StepResultReport := by
  intro s
  obtain ⟨t, ht⟩ | ⟨f, hf⟩ := noStepIsRefused s
  · obtain ⟨i, hd, he⟩ := (step_eq_next s t).mp ht
    refine ⟨_, report_of_next hd he, fun f => ?_, ?_, fun hwait => ?_⟩
    · simp [reportOf_result_ne_fault, ht]
    · simp only [reportOf_result_eq_awaitingInput, awaitsInput_iff, hd, Except.ok.injEq]
    · obtain ⟨⟨x, rfl⟩, hreleased⟩ := awaitsInput_iff.mp (reportOf_result_eq_awaitingInput.mp hwait)
      rw [step_eq_exec hd, exec_ldKey_of_released hreleased]
  · refine ⟨_, report_of_fault hf, fun g => ?_, ⟨nofun, ?_⟩, nofun⟩
    · simp [hf]
    · rintro ⟨⟨x, hd⟩, -⟩
      obtain ⟨t, ht⟩ := exists_step_of_ldKey hd
      cases ht.symm.trans hf

/-! ## Loads, and what the environment keeps (60_exceptions.md section 7) -/

theorem State.loadImage_eq_some {image : List Byte} {t : State} :
    s.loadImage image = some t ↔ image.length ≤ 3584 ∧ s.writeBytes 512 image = t := by
  rw [State.loadImage, Option.ite_none_right_eq_some, Option.some_inj]

theorem State.inv_writeBytes (hs : s.Inv) (a : Nat) (bs : List Byte) : (s.writeBytes a bs).Inv := by
  obtain ⟨hpc, hmem, hstack⟩ := hs
  rw [State.writeBytes_eq]
  exact ⟨hpc, s.wf_writeBytes bs a hmem, hstack⟩

theorem State.inv_advance (hs : s.Inv) (k : Nat) : (s.advance k).Inv := by
  obtain ⟨-, hmem, hstack⟩ := hs
  exact ⟨by rw [State.toNat_advance]; exact Nat.mod_lt _ (by decide), hmem, hstack⟩

/-- Settles O17: timers, keys and the random queue are not in the invariant, and every other move is an
advance or a store of bytes. -/
theorem environmentKeepsInvariant : Obligations.EnvironmentKeepsInvariant := by
  refine fun s hs => ⟨hs, fun n => ?_, fun _ => hs, fun _ => hs, State.inv_advance hs 2,
    State.inv_beginStep hs, fun image t h => ?_, State.inv_writeBytes hs 0,
    fun _ _ => State.inv_writeBytes hs _ _⟩
  · rw [State.ticks_eq]
    exact hs
  · obtain ⟨-, rfl⟩ := State.loadImage_eq_some.mp h
    exact State.inv_writeBytes hs 512 image

/-- Bytes stored inside the 4096 cells: each goes to its own cell, and nothing else changes. -/
theorem State.writeBytes_spec (s : State) {a : Nat} {bs : List Byte} (hfit : a + bs.length ≤ 4096) :
    (∀ j (h : j < bs.length), (s.writeBytes a bs).mem.read (a + j) = bs[j]) ∧
    (∀ c, c < a ∨ a + bs.length ≤ c → (s.writeBytes a bs).mem.read c = s.mem.read c) ∧
    (s.writeBytes a bs).pc = s.pc ∧ SameBut [] [.mem] s (s.writeBytes a bs) := by
  refine ⟨fun j hj => ?_, fun c hc => ?_, s.writeBytes_pc a bs,
    ((FieldsBut.refl [] [.mem] s).writeBytes a bs (by decide)).sameBut⟩
  · have h := s.memRead_writeBytes bs a j hj (by omega)
    rwa [State.memRead, Nat.mod_eq_of_lt (by omega)] at h
  · refine s.read_writeBytes_of_ne bs a c fun k hk => ?_
    rw [Nat.mod_eq_of_lt (by omega)]
    omega

/-- Settles O57: an image of at most 3584 bytes at 512 and a table of at most 512 at 0 both fit. -/
theorem imageLoadedAtEntryPoint : Obligations.ImageLoadedAtEntryPoint := by
  refine fun image s => ⟨fun hfit => ?_, fun hlong => ?_, fun glyphs hfit => ?_⟩
  · exact ⟨_, State.loadImage_eq_some.mpr ⟨hfit, rfl⟩, s.writeBytes_spec (by omega)⟩
  · exact if_neg (Nat.not_le.mpr hlong)
  · simpa only [State.loadGlyphs, Nat.zero_add, Nat.not_lt_zero, false_or] using
      s.writeBytes_spec (a := 0) (bs := glyphs) (by omega)

end Sys2Proof.Machine
end

section
/-! The end of a program and the first step after reset: the obligations StoppedProgramStays and
FirstFetchAtEntryPoint. -/

namespace Sys2Proof.Machine

variable {s t u : State}

/-! ## What the environment alone can change -/

/-- From `s` to `t` only the environment has acted (10_state.md R37): timers, keys and gaps may differ, and
neither timer is higher. -/
def OnlyEnvironment (s t : State) : Prop :=
  t = { s with dt := t.dt, st := t.st, keys := t.keys, gaps := t.gaps } ∧
    t.dt.toNat ≤ s.dt.toNat ∧ t.st.toNat ≤ s.st.toNat

theorem OnlyEnvironment.refl (s : State) : OnlyEnvironment s s := ⟨rfl, le_rfl, le_rfl⟩

theorem OnlyEnvironment.trans (hst : OnlyEnvironment s t) (htu : OnlyEnvironment t u) :
    OnlyEnvironment s u := by
  obtain ⟨ht, htdt, htst⟩ := hst
  obtain ⟨hu, hudt, hust⟩ := htu
  refine ⟨?_, hudt.trans htdt, hust.trans htst⟩
  rw [ht] at hu
  exact hu

theorem State.beginStep_timers_le (s : State) :
    s.beginStep.dt.toNat ≤ s.dt.toNat ∧ s.beginStep.st.toNat ≤ s.st.toNat := by
  cases h : s.gaps with
  | nil => rw [s.beginStep_of_nil h]; exact ⟨le_rfl, le_rfl⟩
  | cons gap rest =>
    obtain ⟨hdt, hst, -⟩ := ticksLowerTimers gap.ticks s
    rw [s.beginStep_of_cons h]
    exact ⟨hdt.trans_le (Nat.sub_le _ _), hst.trans_le (Nat.sub_le _ _)⟩

theorem onlyEnvironment_beginStep (s : State) : OnlyEnvironment s s.beginStep :=
  ⟨by rw [s.beginStep_gaps]; exact s.beginStep_eq, s.beginStep_timers_le⟩

/-! ## A stopped program (70_reset_and_hazards.md R243 (a), D26) -/

theorem State.setPc_eq_self (h : s.pc.toNat < 4096) : s.setPc s.pc.toNat = s := by
  rw [State.setPc, Nat.mod_eq_of_lt h, BitVec.ofNat_toNat, BitVec.setWidth_eq]

theorem State.Stopped.beginStep (h : s.Stopped) : s.beginStep.Stopped := by
  rwa [State.Stopped, State.beginStep_fetchWord, State.beginStep_pc]

/-- A jump to its own address leaves the state the gap before it has made. -/
theorem State.Stopped.step_eq (h : s.Stopped) : step s = .next s.beginStep := by
  obtain ⟨nnn, hd, hpc⟩ := h
  have hlt : s.beginStep.pc.toNat < 4096 := by rw [s.beginStep_pc, ← hpc]; exact nnn.isLt
  rw [step_eq_exec hd, exec_jp, hpc, ← s.beginStep_pc, State.setPc_eq_self hlt]

/-- Settles O59, by induction on the number of steps: each does what the gap before it does
(`State.Stopped.step_eq`), which keeps the program stopped. -/
theorem stoppedProgramStays : Obligations.StoppedProgramStays := by
  intro s k hs
  induction k generalizing s with
  | zero => exact ⟨s, rfl, hs, OnlyEnvironment.refl s⟩
  | succ k ih =>
    obtain ⟨t, hrun, ht, henv⟩ := ih s.beginStep hs.beginStep
    exact ⟨t, (run_succ_of_next s _ k hs.step_eq).trans hrun, ht, (onlyEnvironment_beginStep s).trans henv⟩

/-! ## The first step after reset (R231) -/

theorem State.fetchWord_resetWith (m : Memory) :
    (State.resetWith m).fetchWord = wordOfBytes (m.read 512) (m.read 513) := by
  simp [State.fetchWord, State.memRead, State.resetWith]

/-- Settles O19: the schedule is empty at reset, so the step starts from the reset state itself. -/
theorem firstFetchAtEntryPoint : Obligations.FirstFetchAtEntryPoint := by
  refine fun m => ⟨rfl, ?_⟩
  rw [← State.fetchWord_resetWith]
  cases hd : decode (State.resetWith m).fetchWord with
  | ok i => rw [step_eq_exec hd, State.beginStep_of_nil _ rfl]
  | error e => exact (step_eq_fault _ _).mpr (.inl ⟨e, hd, rfl⟩)

end Sys2Proof.Machine
end
